-- ==== Sys2Proof/Word.lean ====
section
/-! DEFINITION. The three word types of the converter (R45, R47, R49). -/

namespace Sys2Proof

/-- An IBM single-precision hexadecimal floating-point word `w` (R45). -/
abbrev Word := BitVec 32

/-- An IEEE-754 binary32 pattern (R47). -/
abbrev Single := BitVec 32

/-- An IEEE-754 binary64 pattern (R49). -/
abbrev Double := BitVec 64

end Sys2Proof
end

