-- ==== Sys2Proof/Config.lean ====
section
/-! DEFINITION. What a build of the converter fixes (R8, R124), and the free values of its idle response ports (R27, I1). -/

namespace Sys2Proof

/-- The three build parameters of R8. -/
structure Params where
  /-- `DEPTH`: most requests accepted and not yet collected. -/
  depth : Nat
  /-- `LATENCY`: fewest edges from the acceptance of a request to its conversion (R28). -/
  latency : Nat
  /-- `LANES`: parallel conversion datapaths, not observable (R37). -/
  lanes : Nat
  deriving DecidableEq, Repr

/-- How far `DEPTH` exceeds 1. OPEN (D11): no value of it can be proved. See log entry 6. -/
opaque Config.depthExtra : Nat

/-- How far `LATENCY` exceeds 1. OPEN (D12). See log entry 6. -/
opaque Config.latencyExtra : Nat

/-- How far `LANES` exceeds 1. OPEN (D13). See log entry 6. -/
opaque Config.lanesExtra : Nat

/-- The parameters of the block that `step` runs: any legal ones (R8). -/
def Config.params : Params where
  depth := Config.depthExtra + 1
  latency := Config.latencyExtra + 1
  lanes := Config.lanesExtra + 1

/-- Free value: what `rsp_ovf` shows while `rsp_valid = 0` (R27, I1). See log entry 7. -/
opaque Config.idleOvf : Nat → Bool

/-- Free value: what `rsp_ieee32` shows while `rsp_valid = 0` (R27, I1). See log entry 7. -/
opaque Config.idleIeee32 : Nat → Single

/-- Free value: what `rsp_ieee64` shows while `rsp_valid = 0` (R27, I1). See log entry 7. -/
opaque Config.idleIeee64 : Nat → Double

end Sys2Proof
end

