-- ==== Sys2Proof/Syntax.lean ====
section
/-! DEFINITION. The operations of the block: one constructor for each row of the opcode table (R3, R56). -/

namespace Sys2Proof

/-- An operation with its one operand, the request's word taken whole (R55).
`DECODE_MANY` is a pseudo-operation with no encoding of its own (R62): see Machine/Batch.lean and Machine/Asm.lean. -/
inductive Instr where
  /-- `decode_one W`: renormalizing conversion (R83). -/
  | decodeOne (w : Word)
  /-- `decode_direct W`: simple conversion to exact binary64 (R87). -/
  | decodeDirect (w : Word)
  deriving DecidableEq, Repr

end Sys2Proof
end

