-- ==== Sys2Proof/WellFormed.lean ====
section
/-! DEFINITION. What counts as well formed: a request number, an instruction, the build parameters. -/

namespace Sys2Proof

/-- A number is a request exactly when it has 33 bits: there is one request length (R58). -/
def isRequestNumber (v : Nat) : Bool := v < 2 ^ 33

/-- Every instruction is well formed: no value of the word is rejected (R55, R57). -/
def Instr.wellFormed : Instr → Bool
  | .decodeOne _ => true
  | .decodeDirect _ => true

/-- The legal values of the build parameters: each an integer of at least 1 (R8). -/
def Params.legal (p : Params) : Bool := 1 ≤ p.depth && 1 ≤ p.latency && 1 ≤ p.lanes

end Sys2Proof
end

