-- ==== Sys2Proof/Decode.lean ====
section
/-! DEFINITION. The 33-bit request, its decoder and its encoder (R50, R51, R54 to R58), and the opcode map (R56). -/

namespace Sys2Proof

/-- A request `{mode : 1 bit, word : 32 bits}` (R18). `mode` is `false` for 0 and `true` for 1. -/
structure Request where
  mode : Bool
  word : Word
  deriving DecidableEq, Repr

/-- The 33 bits of a request: `mode` in bit 32, `word` in bits 31..0 (R50). -/
def Request.pack (r : Request) : BitVec 33 := BitVec.ofBool r.mode ++ r.word

/-- The request that 33 bits are (R50). -/
def Request.unpack (v : BitVec 33) : Request where
  mode := v.getLsbD 32
  word := v.extractLsb' 0 32

/-- The operation a request selects: bit 32 alone selects it, bits 31..0 are its operand (R51, R56, R58).
Total: each of the 2^33 encodings is one operation (R57). -/
def decode (v : BitVec 33) : Instr :=
  if v.getLsbD 32 then .decodeDirect (v.extractLsb' 0 32) else .decodeOne (v.extractLsb' 0 32)

/-- Why a number decodes to no operation. -/
inductive Reject where
  /-- Raised by `decodeNumber`: the number has more than 33 bits, and there is no such request (R58). Safe. -/
  | notARequest
  deriving DecidableEq, Repr

/-- Decoding of any number whatever: a request, or a rejection by name (R58). -/
def decodeNumber (v : Nat) : Except Reject Instr :=
  if isRequestNumber v then .ok (decode (BitVec.ofNat 33 v)) else .error .notARequest

/-- The request of an operation: `mode` 0 for `decode_one`, 1 for `decode_direct`, and the operand whole (R51, R61). -/
def encode : Instr → BitVec 33
  | .decodeOne w => 0#1 ++ w
  | .decodeDirect w => 1#1 ++ w

/-- A row of the opcode map: the bits `mask` selects must equal `bits` (R56). -/
structure OpcodeRow where
  mnemonic : String
  bits : BitVec 33
  mask : BitVec 33
  deriving DecidableEq, Repr

/-- The row of an operation (R56, R83, R87). -/
def Instr.row : Instr → OpcodeRow
  | .decodeOne _ => ⟨"decode_one", 0x000000000#33, 0x100000000#33⟩
  | .decodeDirect _ => ⟨"decode_direct", 0x100000000#33, 0x100000000#33⟩

/-- The opcode map has two entries (R56). -/
def opcodeMap : List OpcodeRow := [Instr.row (.decodeOne 0#32), Instr.row (.decodeDirect 0#32)]

/-- Does a request match a row? -/
def OpcodeRow.matches (row : OpcodeRow) (v : BitVec 33) : Bool := v &&& row.mask == row.bits

/-- What the decoder reads from the instruction whose bits are `w`, as the opcode table numbers them.
The block takes a request as a value, not as bytes (R33), so no byte order enters.
A number of more than 33 bits is no request. See log entry 10. -/
def decodeTableWord (nbits w : Nat) : Option Instr := (decodeNumber (w % 2 ^ nbits)).toOption

/-- The request that `withFetchWord` places: the low 33 bits of the number. See log entry 10. -/
def requestOfTableWord (nbits w : Nat) : Request := Request.unpack (BitVec.ofNat 33 (w % 2 ^ nbits))

end Sys2Proof
end

