-- ==== Sys2Proof/Machine/State.lean ====
section
/-! DEFINITION. The responses, the moves of the two agents, the state of the block and of its host, reset, and the reasons a step can stop. -/

namespace Sys2Proof.Machine

/-- A response `{ovf : 1 bit, ieee32 : 32 bits, ieee64 : 64 bits}` (R19). -/
structure Response where
  /-- Numerical overflow, the only status bit of the block (R15, R104). -/
  ovf : Bool
  ieee32 : Single
  ieee64 : Double
  deriving DecidableEq, Repr

/-- The causes of R105. -/
inductive Cause where
  | none
  | overflow
  deriving DecidableEq, Repr

/-- The source's typed error (R19): overflow is its one case, with no payload (N5). -/
inductive DecodeError where
  | overflow
  deriving DecidableEq, Repr

/-- The levels the host drives on the input ports at one rising edge (R27). -/
structure Pins where
  rst : Bool
  reqValid : Bool
  reqMode : Bool
  reqWord : Word
  rspReady : Bool
  deriving DecidableEq, Repr

/-- The levels the block drives on its output ports (R27). -/
structure Ports where
  reqReady : Bool
  rspValid : Bool
  rspOvf : Bool
  rspIeee32 : Single
  rspIeee64 : Double
  deriving DecidableEq, Repr

/-- What happens next at the block. The first three are the transaction-level steps of R20 to R22, which are
normative (D2); each stands for an edge with `rst = 0` that does this one thing. `edge` is a rising edge of `clk`
with all its ports (R28, R119), `converts` being how many Convert steps the converter takes at it. -/
inductive Move where
  | issue (r : Request)
  | convert
  | collect
  | edge (pins : Pins) (converts : Nat)
  deriving DecidableEq, Repr

/-- The block, its host, and the coming moves. Plain data. -/
structure State where
  /-- Requests accepted and not yet converted, oldest first (R17). -/
  pend : List Request
  /-- Responses produced and not yet collected, oldest first (R17). -/
  done : List Response
  /-- Has a reset edge happened? Before the first one no run is defined (R122). Log entry 4. -/
  wasReset : Bool
  /-- Held by the host: the requests accepted since the last reset (R30, R41). Log entry 5. -/
  issued : List Request
  /-- Held by the host: the responses received since the last reset (R22, R30). Log entry 5. -/
  collected : List Response
  /-- Held by the host: the responses received before the last reset (R123). Log entry 5. -/
  earlier : List Response
  /-- The coming moves of the two agents, a free schedule (R16). Log entry 1. -/
  schedule : List Move
  /-- The model's own: the argument of the idle ports' free values, advanced by every step. Log entry 7. -/
  freeTick : Nat
  deriving DecidableEq, Repr

/-- Right after reset (R29, R119): both queues empty. The host's and the model's own fields are empty too
(log entries 1, 5 and 7). -/
def State.reset : State where
  pend := []
  done := []
  wasReset := true
  issued := []
  collected := []
  earlier := []
  schedule := []
  freeTick := 0

/-- Why a step stops. No request and no edge raises a fault (R57, R106): each of these says that the schedule names a
transaction-level step that is not enabled, so that there is no such step (R126, I12 `stuck`). All are safe.
Log entry 3. -/
inductive Fault where
  /-- Raised by a scheduled Issue while occupancy is `DEPTH` (R20, R126). Safe. -/
  | issueNotEnabled
  /-- Raised by a scheduled Convert while `pend` is empty (R21). Safe. -/
  | convertNotEnabled
  /-- Raised by a scheduled Collect while `done` is empty (R22). Safe. -/
  | collectNotEnabled
  deriving DecidableEq, Repr

/-- Why the model gives no meaning. -/
inductive Refusal where
  /-- Raised by an arm of exec for an instruction with no meaning yet. No arm does. Safe. -/
  | notModelled (mnemonic : String)
  /-- Raised by step for any move but a reset edge before the first reset (R122, I2 `refuse`). Safe. Log entry 4. -/
  | beforeFirstReset
  deriving DecidableEq, Repr

end Sys2Proof.Machine
end

