-- ==== Sys2Proof/Machine/Flags.lean ====
section
/-! DEFINITION. The one flag, `ovf` (R15, R79), and the host's reading of it (R105, R127). -/

namespace Sys2Proof.Machine

/-- `ovf = (ieee32[30:23] == 0xFF)` (R79). -/
def overflowFlag (x : Single) : Bool := x.extractLsb' 23 8 == 0xFF#8

/-- The cause code of a response is its bit `ovf` (R104, R105). -/
def Response.cause (r : Response) : Cause := if r.ovf then .overflow else .none

/-- The source's `Result<float64, DecodeError>` (R19): `ovf` is read before the data (R127). -/
def Response.result (r : Response) : Except DecodeError Double :=
  if r.ovf then .error .overflow else .ok r.ieee64

end Sys2Proof.Machine
end

