-- ==== Sys2Proof/Machine/Operands.lean ====
section
/-! DEFINITION. The operand of an operation taken apart: the fields of the IBM word (R45, R54), the mantissa normalizer
(R67, R69 to R71) and the exponent rebaser (R72 to R77). -/

namespace Sys2Proof.Machine

/-- `s = w[31]` (R45, R54). -/
def signOf (w : Word) : BitVec 1 := w.extractLsb' 31 1

/-- `E = w[30:24]` (R45, R54). -/
def exponentOf (w : Word) : BitVec 7 := w.extractLsb' 24 7

/-- `M = w[23:0]` (R45, R54). -/
def mantissaOf (w : Word) : BitVec 24 := w.extractLsb' 0 24

/-- The IBM word with the given fields (R45). -/
def ibmWord (s : BitVec 1) (E : BitVec 7) (M : BitVec 24) : Word := s ++ E ++ M

/-- `w[23:20]`, the mantissa's top hexadecimal digit (R45, R54). -/
def topNibble (w : Word) : BitVec 4 := w.extractLsb' 20 4

/-- True zero: the mantissa alone is tested (R67). -/
def isTrueZero (w : Word) : Bool := mantissaOf w == 0#24

/-- Normalized: the top nibble is not zero (R12). -/
def isNormalized (w : Word) : Bool := topNibble w != 0#4

/-- Denormalized: `M ≠ 0` and a top nibble of zero (R12, R69). The test affects no output. -/
def isDenormalized (w : Word) : Bool := mantissaOf w != 0#24 && topNibble w == 0#4

/-- Leading zeros among the low `k` bits, counted from bit `k - 1` downward. -/
def leadingZeros {n : Nat} (v : BitVec n) : Nat → Nat
  | 0 => 0
  | k + 1 => if v.getLsbD k then 0 else leadingZeros v k + 1

/-- `lzc24(M)`, counted from bit 23 downward; it lies in 0..23 for `M ≠ 0` (R10, R70). -/
def lzc24 (M : BitVec 24) : Nat := leadingZeros M 24

/-- `N = (M << n)[23:0]` (R71). -/
def significand (M : BitVec 24) (n : Nat) : BitVec 24 := M <<< n

/-- `f = N[22:0]`, the bits below the hidden bit (R71). -/
def fraction (M : BitVec 24) (n : Nat) : BitVec 23 := (significand M n).extractLsb' 0 23

/-- The computed exponent `e = 4·int(E) − 130 − n`, an integer (R72, R73). -/
def computedExponent (E : BitVec 7) (n : Nat) : Int := 4 * (E.toNat : Int) - 130 - (n : Int)

/-- The clamp of the rebaser: underflow (R74), overflow (R75), in range, `e = 0` included (R76, R77). -/
def clamp (e : Int) (f : BitVec 23) : BitVec 8 × BitVec 23 :=
  if e < 0 then (0x00#8, 0#23)
  else if 255 ≤ e then (0xFF#8, 0#23)
  else (BitVec.ofInt 8 e, f)

/-- The exponent the rebaser computes for a word with `M ≠ 0`. -/
def wordExponent (w : Word) : Int := computedExponent (exponentOf w) (lzc24 (mantissaOf w))

end Sys2Proof.Machine
end

