-- ==== Sys2Proof/Machine/Transcoder.lean ====
section
/-! DEFINITION. The format transcoder: assembly of binary32 (R78), widening (R80), the exact binary64 pattern (R86), and
the 97-bit response format (R52). -/

namespace Sys2Proof.Machine

/-- `ieee32 = {s, X, F}` (R78). -/
def assemble32 (s : BitVec 1) (X : BitVec 8) (F : BitVec 23) : Single := s ++ X ++ F

/-- A binary64 pattern from its fields (R49). -/
def assemble64 (s : BitVec 1) (Y : BitVec 11) (G : BitVec 52) : Double := s ++ Y ++ G

/-- Index of the most significant 1 among the low `k` bits, 0 where there is none. -/
def topBit {n : Nat} (v : BitVec n) : Nat → Nat
  | 0 => 0
  | k + 1 => if v.getLsbD k then k else topBit v k

/-- `Widen`, the exact conversion of binary32 to binary64 (R80). -/
def widen (x : Single) : Double :=
  let g := x.extractLsb' 31 1
  let X := x.extractLsb' 23 8
  let F := x.extractLsb' 0 23
  if X = 0#8 ∧ F = 0#23 then g ++ 0#63
  else if X = 0#8 then
    let p := topBit F 23
    assemble64 g (BitVec.ofNat 11 (p + 874)) (BitVec.ofNat 52 ((F.toNat - 2 ^ p) * 2 ^ (52 - p)))
  else if X = 255#8 then assemble64 g 0x7FF#11 (F ++ 0#29)
  else assemble64 g (BitVec.ofNat 11 (X.toNat + 896)) (F ++ 0#29)

/-- The binary64 pattern of `DECODE_DIRECT` (R86). -/
def directPattern (w : Word) : Double :=
  if isTrueZero w then signOf w ++ 0#63
  else
    let n := lzc24 (mantissaOf w)
    let Y := 4 * ((exponentOf w).toNat : Int) + 766 - (n : Int)
    assemble64 (signOf w) (BitVec.ofInt 11 Y) (fraction (mantissaOf w) n ++ 0#29)

/-- The 97 bits of a response: `ovf` in bit 96, `ieee64` in bits 95..32, `ieee32` in bits 31..0 (R52). -/
def Response.pack (r : Response) : BitVec 97 := BitVec.ofBool r.ovf ++ r.ieee64 ++ r.ieee32

/-- The response that 97 bits are (R52). -/
def Response.unpack (v : BitVec 97) : Response where
  ovf := v.getLsbD 96
  ieee64 := v.extractLsb' 32 64
  ieee32 := v.extractLsb' 0 32

end Sys2Proof.Machine
end

