-- ==== Sys2Proof/Machine/Ops.lean ====
section
/-! DEFINITION. The shared operations: forming a response, raising the one exception, and the named changes of the two
queues. The block has no memory and no registers (R13, R31), so there is no other operation. -/

namespace Sys2Proof.Machine

/-- The outcome of a step of this machine. -/
abbrev Result := Host.Outcome State Fault Refusal

/-- Go on from a next state, stop where the first part stopped. -/
def andThen {σ τ φ ρ : Type} (o : Host.Outcome σ φ ρ) (f : σ → Host.Outcome τ φ ρ) : Host.Outcome τ φ ρ :=
  match o with
  | .next s => f s
  | .fault r => .fault r
  | .refused r => .refused r

/-- A successful response (R19, R52). -/
def succeed (x : Single) (y : Double) : Response := ⟨false, x, y⟩

/-- `raise Overflow(info)`, the one exception (R104): the response being formed has `ovf = 1` and carries the info. It
never transfers control (R10), saves no state and changes no mode (R111), and there is no return from it (R112). -/
def raiseOverflow (x : Single) (y : Double) : Response := ⟨true, x, y⟩

/-- `length(pend) + length(done)` (R17). -/
abbrev State.occupancy (s : State) : Nat := s.pend.length + s.done.length

/-- A conversion's one effect: its response at the tail of `done` (R21). -/
def State.respond (s : State) (r : Response) : State := { s with done := s.done ++ [r] }

/-- A request accepted at the tail of `pend` (R20), and noted by the host. -/
def State.accept (s : State) (r : Request) : State :=
  { s with pend := s.pend ++ [r], issued := s.issued ++ [r] }

/-- The oldest request leaves `pend` (R21). -/
def State.dropPend (s : State) : State := { s with pend := s.pend.tail }

/-- The oldest response leaves `done` and the host receives it (R22). -/
def State.deliver (s : State) (r : Response) : State :=
  { s with done := s.done.tail, collected := s.collected ++ [r] }

/-- An edge with `rst = 1` (R119): both queues are emptied. What the host received stays with it (R123). -/
def State.resetEdge (s : State) : State :=
  { s with
    pend := []
    done := []
    wasReset := true
    issued := []
    collected := []
    earlier := s.earlier ++ s.collected }

/-- One move of the schedule is used up, and the free values of the idle ports are drawn anew. -/
def State.advance (s : State) : State :=
  { s with schedule := s.schedule.tail, freeTick := s.freeTick + 1 }

end Sys2Proof.Machine
end

