-- ==== Sys2Proof/Machine/DecodeDirect.lean ====
section
/-! DEFINITION. `DECODE_DIRECT`, the simple conversion to exact binary64 (R85 to R87). -/

namespace Sys2Proof.Machine

/-- The response of `DECODE_DIRECT` (R87): `ieee32` is no result and is zero, `ovf` is always 0. -/
def decodeDirectResponse (w : Word) : Response := succeed 0x00000000#32 (directPattern w)

/-- `DECODE_DIRECT` (R87): its response is all it does (R21). -/
def execDecodeDirect (w : Word) (s : State) : Host.Outcome State Fault Refusal :=
  .next (s.respond (decodeDirectResponse w))

end Sys2Proof.Machine
end

