-- ==== Sys2Proof/Machine/DecodeOne.lean ====
section
/-! DEFINITION. `DECODE_ONE`, the renormalizing conversion (R65 to R84). -/

namespace Sys2Proof.Machine

/-- `Conv32`: the word to the pair `(ieee32, ovf)` (R66). Zero result (R68), else normalize (R70, R71), rebase and clamp
(R72 to R77), assemble (R78) and derive `ovf` (R79). Normalized and denormalized words go the same way (R69). -/
def conv32 (w : Word) : Single × Bool :=
  if isTrueZero w then (assemble32 (signOf w) 0#8 0#23, false)
  else
    let n := lzc24 (mantissaOf w)
    let XF := clamp (computedExponent (exponentOf w) n) (fraction (mantissaOf w) n)
    let x := assemble32 (signOf w) XF.1 XF.2
    (x, overflowFlag x)

/-- The response of `DECODE_ONE` (R83): the pattern with its widening (R80, R81), as an overflow where `ovf` is set. -/
def decodeOneResponse (w : Word) : Response :=
  let x := (conv32 w).1
  if (conv32 w).2 then raiseOverflow x (widen x) else succeed x (widen x)

/-- `DECODE_ONE` (R83): its response is all it does (R21, R106). -/
def execDecodeOne (w : Word) (s : State) : Host.Outcome State Fault Refusal :=
  .next (s.respond (decodeOneResponse w))

end Sys2Proof.Machine
end

