-- ==== Sys2Proof/Machine/Dispatch.lean ====
section
/-! DEFINITION. One arm per operation (R51). -/

namespace Sys2Proof.Machine

def exec (i : Instr) (s : State) : Host.Outcome State Fault Refusal :=
  match i with
  | .decodeOne w => Sys2Proof.Machine.execDecodeOne w s
  | .decodeDirect w => Sys2Proof.Machine.execDecodeDirect w s

end Sys2Proof.Machine
end

