-- ==== Sys2Proof/Machine/Agents.lean ====
section
/-! DEFINITION. The steps of the two agents (R20 to R22), the ports and the rising edge (R27, R28, R119), and the step for
given parameters. -/

namespace Sys2Proof.Machine

/-- What an operation answers, as a function of the operation alone (R21, R38). -/
def instrResponse : Instr → Response
  | .decodeOne w => decodeOneResponse w
  | .decodeDirect w => decodeDirectResponse w

/-- `Exec(r)`: the operation selected by the request's mode (R21). It reads only the request. -/
def execRequest (r : Request) : Response := instrResponse (decode r.pack)

/-- Host step Issue (R20): enabled while occupancy is below `DEPTH`. -/
def issue (depth : Nat) (r : Request) (s : State) : Result :=
  if s.occupancy < depth then .next (s.accept r) else .fault .issueNotEnabled

/-- Converter step Convert (R21): the oldest request leaves `pend`, is decoded and executed. -/
def convert (s : State) : Result :=
  match s.pend with
  | [] => .fault .convertNotEnabled
  | r :: _ => exec (decode r.pack) s.dropPend

/-- Host step Collect (R22). -/
def collect (s : State) : Result :=
  match s.done with
  | [] => .fault .collectNotEnabled
  | r :: _ => .next (s.deliver r)

/-- Up to `k` Convert steps, as many as `pend` holds (R28: zero or more at an edge). -/
def convertUpTo : Nat → State → Result
  | 0, s => .next s
  | k + 1, s => if s.pend.isEmpty then .next s else andThen (convert s) (convertUpTo k)

/-- The output ports, for a level of `rst` (R27). The data ports are free values while `rsp_valid = 0`. -/
def ports (p : Params) (rst : Bool) (s : State) : Ports :=
  let shown := if rst then none else s.done.head?
  { reqReady := !rst && decide (s.occupancy < p.depth)
    rspValid := shown.isSome
    rspOvf := (shown.map (·.ovf)).getD (Config.idleOvf s.freeTick)
    rspIeee32 := (shown.map (·.ieee32)).getD (Config.idleIeee32 s.freeTick)
    rspIeee64 := (shown.map (·.ieee64)).getD (Config.idleIeee64 s.freeTick) }

/-- Is the offered request accepted at this edge (R28, R125)? -/
def accepted (p : Params) (pins : Pins) (s : State) : Bool := pins.reqValid && (ports p pins.rst s).reqReady

/-- Is the offered response taken at this edge (R28)? -/
def taken (p : Params) (pins : Pins) (s : State) : Bool := pins.rspReady && (ports p pins.rst s).rspValid

/-- The request offered on the pins (R28, R50). -/
def Pins.request (pins : Pins) : Request := ⟨pins.reqMode, pins.reqWord⟩

/-- Collect where the response is taken, nothing otherwise. -/
def collectIf (taken : Bool) (s : State) : Result := if taken then collect s else .next s

/-- Issue where the request is accepted, nothing otherwise. -/
def issueIf (accepted : Bool) (depth : Nat) (r : Request) (s : State) : Result :=
  if accepted then issue depth r s else .next s

/-- Several steps one after the other. -/
def inSequence : List (State → Result) → State → Result
  | [], s => .next s
  | f :: fs, s => andThen (f s) (inSequence fs)

/-- A rising edge of `clk` (R28, R119). Reset wins over every transfer. Both handshakes are read from the state before
the edge. The request of this edge is not converted at it, since `LATENCY ≥ 1`, so Convert comes before Issue; and a
response of this edge is not collected at it, so Collect comes before Convert. Log entry 11. -/
def edge (p : Params) (pins : Pins) (converts : Nat) (s : State) : Result :=
  if pins.rst then .next s.resetEdge
  else if !s.wasReset then .refused .beforeFirstReset
  else
    inSequence [collectIf (taken p pins s), convertUpTo converts, issueIf (accepted p pins s) p.depth pins.request] s

/-- A transaction-level step; before the first reset it has no meaning (R122). -/
def afterReset (s : State) (o : Result) : Result := if s.wasReset then o else .refused .beforeFirstReset

/-- One scheduled move. -/
def takeMove (p : Params) : Move → State → Result
  | .issue r, s => afterReset s (issue p.depth r s)
  | .convert, s => afterReset s (convert s)
  | .collect, s => afterReset s (collect s)
  | .edge pins converts, s => edge p pins converts s

/-- After the schedule's end: the converter converts while a request is pending (R21, weak fairness), and the block idles
and waits for a request otherwise (R118, R121). Log entry 2. -/
def settle (s : State) : Result := afterReset s (if s.pend.isEmpty then .next s else convert s)

/-- One step of the block with the parameters `p`: the next move of the schedule. -/
def stepWith (p : Params) (s : State) : Result :=
  match s.schedule with
  | [] => settle s.advance
  | m :: _ => takeMove p m s.advance

/-- `k` steps with the parameters `p`. -/
def runWith (p : Params) : Nat → State → Result
  | 0, s => .next s
  | k + 1, s => andThen (stepWith p s) (runWith p k)

/-- The state in which the very next step converts the request `r`: `r` is the oldest pending request, the next move is
Convert, and the block has been reset. Nothing else changes. Log entry 10. -/
def State.withNextRequest (s : State) (r : Request) : State :=
  { s with pend := r :: s.pend, schedule := .convert :: s.schedule, wasReset := true }

end Sys2Proof.Machine
end

