-- ==== Sys2Proof/Machine/Step.lean ====
section
/-! DEFINITION. The step of the machine, and the placing of an instruction where the step takes its next one. -/

namespace Sys2Proof.Machine

/-- One step of the block with the parameters of the build (R8), whatever legal values they have. -/
def step (s : State) : Host.Outcome State Fault Refusal := stepWith Config.params s

/-- `s` with the given instruction as the one the next step runs. The block has no program counter (R14): it takes the
oldest pending request (R21). Log entry 10. -/
def State.withFetchWord (s : State) (nbits w : Nat) : State := s.withNextRequest (requestOfTableWord nbits w)

end Sys2Proof.Machine
end

