-- ==== Sys2Proof/Machine/Batch.lean ====
section
/-! DEFINITION. The pseudo-operation `DECODE_MANY` (R62, R96) and the running of a program by the host (R63, R132). -/

namespace Sys2Proof.Machine

/-- The expansion of `decode_many`: one `decode_one` request for each word, in order (R62, R96). -/
def expandMany (ws : List Word) : List Request := ws.map fun w => ⟨false, w⟩

/-- The batch result: `DECODE_ONE` of each word, in order (R96, R98). -/
def decodeMany (ws : List Word) : List Response := ws.map decodeOneResponse

/-- A schedule that completes a program for every `DEPTH`: each request issued, converted and collected before the next
is issued (R63; the only one for `DEPTH = 1`). -/
def sequential : List Request → List Move
  | [] => []
  | r :: rs => .issue r :: .convert :: .collect :: sequential rs

/-- The pins of an edge at which the host offers the request, if any, and takes whatever response is offered. -/
def offering (r : Option Request) : Pins :=
  ⟨false, r.isSome, (r.map (·.mode)).getD false, (r.map (·.word)).getD 0#32, true⟩

/-- Edges that stream a program: each request is offered at its own edge, one after the other, and `drain` more edges
collect the rest. At each of them the converter would take one Convert step (R28, R129). -/
def streaming (rs : List Request) (drain : Nat) : List (Pins × Nat) :=
  (rs.map some ++ List.replicate drain none).map fun r => (offering r, 1)

/-- A sequence of edges as moves of the schedule. -/
def edgeMoves (es : List (Pins × Nat)) : List Move := es.map fun e => .edge e.1 e.2

/-- The state in which the host has the given schedule before it, right after reset (R122, R132). -/
def State.scheduled (moves : List Move) : State := { State.reset with schedule := moves }

end Sys2Proof.Machine
end

