-- ==== Sys2Proof/Machine/Asm.lean ====
section
/-! DEFINITION. The assembler's syntax (R59, R60), the requests a program assembles to (R61 to R63), and the printed forms
of requests and responses (R61, R64). Text is a list of characters. Log entry 12. -/

namespace Sys2Proof.Machine

/-- Why a text assembles to nothing. -/
inductive AsmError where
  /-- The line's first token is none of the three mnemonics (R59). -/
  | unknownOperation
  /-- Where the grammar asks for a word there is none (R59). -/
  | wordExpected
  /-- The literal has more than eight digits (R59, R60). -/
  | wordTooLong
  /-- Text stands after the operation that is no comment (R59). -/
  | trailingText
  /-- The last line is not ended (R59). -/
  | lineNotEnded
  deriving DecidableEq, Repr

/-- White space between the tokens of a line. -/
def isBlank (c : Char) : Bool := c == ' ' || c == '\t' || c == '\r'

/-- The text after its leading white space. -/
def skipBlanks (cs : List Char) : List Char := cs.dropWhile isBlank

/-- The text after the given token, where it begins with it. -/
def afterToken : List Char → List Char → Option (List Char)
  | [], cs => some cs
  | _ :: _, [] => none
  | t :: ts, c :: cs => if t == c then afterToken ts cs else none

/-- The sixteen hexadecimal digits, each at the place of its value, as the spec prints them (R61, R64). -/
def hexDigitChars : List Char := "0123456789ABCDEF".toList

/-- The value of a hexadecimal digit: its place among the sixteen, whatever its case (R60). -/
def hexValue (c : Char) : Option Nat := hexDigitChars.idxOf? c.toUpper

/-- The leading hexadecimal digits of a text, and the rest. -/
def takeHex : List Char → List Nat × List Char
  | [] => ([], [])
  | c :: cs =>
    match hexValue c with
    | none => ([], c :: cs)
    | some d => (d :: (takeHex cs).1, (takeHex cs).2)

/-- The number that hexadecimal digits spell. -/
def hexNumber (ds : List Nat) : Nat := ds.foldl (fun v d => 16 * v + d) 0

/-- `word ::= "0x" hexdigit`, one to eight digits, zero-extended to 32 bits (R59, R60). -/
def parseWord (cs : List Char) : Except AsmError (Word × List Char) :=
  match afterToken ['0', 'x'] (skipBlanks cs) with
  | none => .error .wordExpected
  | some rest =>
    if (takeHex rest).1.length = 0 then .error .wordExpected
    else if 8 < (takeHex rest).1.length then .error .wordTooLong
    else .ok (BitVec.ofNat 32 (hexNumber (takeHex rest).1), (takeHex rest).2)

/-- The words after the first, each after a comma; the number bounds how many are read. -/
def parseMore : Nat → List Char → Except AsmError (List Word × List Char)
  | 0, cs => .ok ([], cs)
  | k + 1, cs =>
    match afterToken [','] (skipBlanks cs) with
    | none => .ok ([], cs)
    | some rest =>
      match parseWord rest with
      | .error e => .error e
      | .ok (w, rest') =>
        match parseMore k rest' with
        | .error e => .error e
        | .ok (ws, rest'') => .ok (w :: ws, rest'')

/-- The operand list of `decode_many`: no word, or words separated by commas (R59). -/
def parseWords (cs : List Char) : Except AsmError (List Word × List Char) :=
  if (skipBlanks cs).isEmpty then .ok ([], [])
  else
    match parseWord cs with
    | .error e => .error e
    | .ok (w, rest) =>
      match parseMore rest.length rest with
      | .error e => .error e
      | .ok (ws, rest') => .ok (w :: ws, rest')

/-- A parsed operation, with nothing but white space after it. -/
def finish {α : Type} (f : α → List Request) : Except AsmError (α × List Char) → Except AsmError (List Request)
  | .error e => .error e
  | .ok (a, rest) => if (skipBlanks rest).isEmpty then .ok (f a) else .error .trailingText

/-- The mnemonic of `decode_one` (R59). -/
def oneToken : List Char := ['d', 'e', 'c', 'o', 'd', 'e', '_', 'o', 'n', 'e']

/-- The mnemonic of `decode_direct` (R59). -/
def directToken : List Char := ['d', 'e', 'c', 'o', 'd', 'e', '_', 'd', 'i', 'r', 'e', 'c', 't']

/-- The mnemonic of `decode_many` (R59). -/
def manyToken : List Char := ['d', 'e', 'c', 'o', 'd', 'e', '_', 'm', 'a', 'n', 'y']

/-- The requests of an operation's text, without its comment (R61, R62). -/
def parseOperation (cs : List Char) : Except AsmError (List Request) :=
  match afterToken oneToken cs with
  | some rest => finish (fun w => [⟨false, w⟩]) (parseWord rest)
  | none =>
    match afterToken directToken cs with
    | some rest => finish (fun w => [⟨true, w⟩]) (parseWord rest)
    | none =>
      match afterToken manyToken cs with
      | some rest => finish expandMany (parseWords rest)
      | none => .error .unknownOperation

/-- A line: an optional operation and an optional comment; with no operation it assembles to nothing (R59, R63). -/
def assembleLine (cs : List Char) : Except AsmError (List Request) :=
  let body := skipBlanks (cs.takeWhile (· != ';'))
  if body.isEmpty then .ok [] else parseOperation body

/-- The lines of a text, each ended by a newline (R59); `line` holds the characters of the present line. -/
def assembleFrom (line : List Char) : List Char → Except AsmError (List Request)
  | [] => if line.isEmpty then .ok [] else .error .lineNotEnded
  | c :: cs =>
    if c == '\n' then
      match assembleLine line with
      | .error e => .error e
      | .ok rs =>
        match assembleFrom [] cs with
        | .error e => .error e
        | .ok rs' => .ok (rs ++ rs')
    else assembleFrom (line ++ [c]) cs

/-- The requests of a program, in the order of its lines (R59, R63). -/
def assemble (text : List Char) : Except AsmError (List Request) := assembleFrom [] text

/-- The hexadecimal digit of a value, as the spec prints it. -/
def hexDigit (d : Nat) : Char := (hexDigitChars[d % 16]?).getD '0'

/-- The low `k` hexadecimal digits of a number. -/
def hexDigits : Nat → Nat → List Char
  | 0, _ => []
  | k + 1, v => hexDigits k (v / 16) ++ [hexDigit v]

/-- A number printed as `0x` and `k` hexadecimal digits. -/
def printHex (k v : Nat) : List Char := '0' :: 'x' :: hexDigits k v

/-- A request is written as `0x` followed by nine hexadecimal digits (R61). -/
def printRequest (r : Request) : List Char := printHex 9 r.pack.toNat

/-- An operation's line (R59, R61). -/
def printLine : Instr → List Char
  | .decodeOne w => oneToken ++ ' ' :: printHex 8 w.toNat
  | .decodeDirect w => directToken ++ ' ' :: printHex 8 w.toNat

/-- The words of a `decode_many` line, separated by commas (R59). -/
def printWords : List Word → List Char
  | [] => []
  | [w] => ' ' :: printHex 8 w.toNat
  | w :: w' :: ws => ' ' :: printHex 8 w.toNat ++ ',' :: printWords (w' :: ws)

/-- A `decode_many` line (R59, R62). -/
def printMany (ws : List Word) : List Char := manyToken ++ printWords ws

/-- A program's text: each line ended by a newline (R59). -/
def printProgram (lines : List (List Char)) : List Char := lines.flatMap (· ++ ['\n'])

/-- `OK(ieee32, ieee64)` or `OVERFLOW(ieee32, ieee64)` (R64). -/
def printResponse (r : Response) : List Char :=
  (if r.ovf then ['O', 'V', 'E', 'R', 'F', 'L', 'O', 'W'] else ['O', 'K'])
    ++ '(' :: printHex 8 r.ieee32.toNat ++ ',' :: ' ' :: printHex 16 r.ieee64.toNat ++ [')']

/-- A program's text made ready to run from reset: its requests issued in order and one response collected for each
(R63, R132). -/
def loadProgram (text : List Char) : Except AsmError State :=
  match assemble text with
  | .error e => .error e
  | .ok rs => .ok (State.scheduled (sequential rs))

end Sys2Proof.Machine
end

