-- ==== Sys2Proof/Machine/Lanes.lean ====
section
/-! DEFINITION. A converter with `LANES` parallel datapaths (R8, R37, R100): the requests are dealt to the lanes in turn,
each lane converts its own requests apart from the others, and the responses are delivered in request order (R41).
Not part of the step: it is the design whose responses R37 says are the same. Log entry 9. -/

namespace Sys2Proof.Machine

/-- The requests dealt to lane `j`: those whose place leaves the remainder `j`. -/
def laneInput (lanes j : Nat) (rs : List Request) : List Request :=
  (rs.zipIdx.filter fun ri => ri.2 % lanes == j).map (·.1)

/-- What each lane produces from its own requests alone. -/
def laneOutputs (lanes : Nat) (rs : List Request) : List (List Response) :=
  (List.range lanes).map fun j => (laneInput lanes j rs).map execRequest

/-- Delivery in request order: the response of place `i` is the next one of lane `i % lanes`. -/
def laneDeliver (lanes n : Nat) (outs : List (List Response)) : List Response :=
  (List.range n).filterMap fun i => (outs[i % lanes]?).bind fun out => out[i / lanes]?

/-- The responses of a converter with the given number of lanes. -/
def laneConvert (lanes : Nat) (rs : List Request) : List Response :=
  laneDeliver lanes rs.length (laneOutputs lanes rs)

end Sys2Proof.Machine
end

