-- ==== Sys2Proof/Machine/Reference.lean ====
section
/-! DEFINITION. Two things the spec defines beside the block to state properties of it: the source's shift loop (R82) and
the truncating encoder (R133). Neither is an operation. -/

namespace Sys2Proof.Machine

/-- The source's loop on the 32-bit working register: at most the given number of single shifts, until bit 31 is set
(R82). It answers the register and the number of shifts `k`. -/
def shiftLoop : Nat → BitVec 32 → Nat → BitVec 32 × Nat
  | 0, reg, k => (reg, k)
  | left + 1, reg, k => if reg.getLsbD 31 then (reg, k) else shiftLoop left (reg <<< 1) (k + 1)

/-- The source's normalizer: the mantissa in the upper 24 bits (C2), at most 5 shifts (R82). -/
def sourceNormalizer (M : BitVec 24) : BitVec 32 × Nat := shiftLoop 5 (M ++ 0#8) 0

/-- The exponent of the source's formula, with the exponent field in place (R72, C1). -/
def sourceExponent (w : Word) (n : Nat) : Int :=
  (((w &&& 0x7F000000#32) >>> 22).toNat : Int) - 256 + 127 - (n : Int) - 1

/-- The source's assembly, with the sign in place (R78, C3). -/
def sourceAssembly (w : Word) (X : BitVec 8) (F : BitVec 23) : Single :=
  (w &&& 0x80000000#32) ||| (X.setWidth 32 <<< 23) ||| F.setWidth 32

/-- `r` of R133: `X − 127 = 4·q + r` with `0 ≤ r ≤ 3`. -/
def encodeShift (x : Single) : Nat := (((x.extractLsb' 23 8).toNat : Int) - 127).emod 4 |>.toNat

/-- `q` of R133. -/
def encodeQuotient (x : Single) : Int := (((x.extractLsb' 23 8).toNat : Int) - 127).ediv 4

/-- The truncating normalized encoder `Enc` of R133, for a normal binary32 pattern:
`E = q + 65` and `M = ((2^23 + F) << r) >> 3`. -/
def encodeNormal (x : Single) : Word :=
  ibmWord (x.extractLsb' 31 1) (BitVec.ofInt 7 (encodeQuotient x + 65))
    (BitVec.ofNat 24 (((2 ^ 23 + (x.extractLsb' 0 23).toNat) <<< encodeShift x) >>> 3))

/-- A binary32 pattern with its low `k` bits cleared. -/
def clearLow (x : Single) (k : Nat) : Single := (x >>> k) <<< k

end Sys2Proof.Machine
end

