-- ==== Sys2Proof/Machine/System.lean ====
section
/-! DEFINITION. Several blocks (R116): each has its own state, and a step of one is a step of it alone. -/

namespace Sys2Proof.Machine

/-- A step of the block with index `i`, where there is one. Blocks share no state and no hardware-thread identifier
exists (R116): the index is the observer's. -/
def systemStep (p : Params) (i : Nat) (blocks : List State) : Host.Outcome (List State) Fault Refusal :=
  match blocks[i]? with
  | none => .next blocks
  | some s => andThen (stepWith p s) fun s' => .next (blocks.set i s')

end Sys2Proof.Machine
end

