-- ==== Sys2Proof/Machine/Timing.lean ====
section
/-! DEFINITION. The block with its edges counted (R28, R130): a Convert step comes no earlier than `LATENCY` edges after
the edge that issued its request. The step of the model has no time, as R130 says; this layer bounds how many Convert
steps an edge may take, and its states project to those of the step. Log entry 8. -/

namespace Sys2Proof.Machine

/-- A state with the number of the coming edge and, oldest first, the edge at which each pending request was accepted.
Bookkeeping of the model: the block has no counter (R115). -/
structure Timed where
  state : State
  stamps : List Nat
  now : Nat
  deriving DecidableEq, Repr

/-- Right after reset, before edge 0. -/
def Timed.reset : Timed := ⟨State.reset, [], 0⟩

/-- How many of the oldest pending requests may be converted at the coming edge (R28). -/
def Timed.ripe (latency : Nat) (t : Timed) : Nat :=
  (t.stamps.takeWhile fun a => decide (a + latency ≤ t.now)).length

/-- How many Convert steps happen at an edge at which the converter would take `converts`. -/
def Timed.taken (latency converts : Nat) (t : Timed) : Nat :=
  min (min converts (t.ripe latency)) t.state.pend.length

/-- A rising edge at its time. -/
def timedEdge (p : Params) (pins : Pins) (converts : Nat) (t : Timed) : Host.Outcome Timed Fault Refusal :=
  andThen (edge p pins (t.taken p.latency converts) t.state) fun s' =>
    .next
      { state := s'
        stamps :=
          if pins.rst then []
          else t.stamps.drop (t.taken p.latency converts) ++ (if accepted p pins t.state then [t.now] else [])
        now := t.now + 1 }

/-- A sequence of edges at their times. -/
def timedRun (p : Params) : List (Pins × Nat) → Timed → Host.Outcome Timed Fault Refusal
  | [], t => .next t
  | e :: es, t => andThen (timedEdge p e.1 e.2 t) (timedRun p es)

end Sys2Proof.Machine
end

