-- ==== Sys2Proof/Machine/Values.lean ====
section
/-! DEFINITION. The values of the three formats, as rational numbers: the IBM word (R46), binary32 (R48) and binary64
(R49). No operation reads them; claims about exactness do (R85, R89). -/

namespace Sys2Proof.Machine

/-- What an IEEE pattern stands for: a signed zero, a number, a signed infinity, or no number. -/
inductive FloatValue where
  | zero (negative : Bool)
  | number (v : Rat)
  | infinity (negative : Bool)
  | nan
  deriving DecidableEq, Repr

/-- `(−1)^s`. -/
def signFactor (s : BitVec 1) : Rat := if s = 1#1 then -1 else 1

/-- `value(w) = (−1)^s · (int(M) / 2^24) · 16^(int(E) − 64)` (R46). -/
def ibmValue (w : Word) : Rat :=
  signFactor (signOf w) * ((mantissaOf w).toNat / 2 ^ 24) * 16 ^ (((exponentOf w).toNat : Int) - 64)

/-- The value of an IBM word as an IEEE operation would give it exactly: a true zero is a zero of the word's sign (R85). -/
def ibmFloat (w : Word) : FloatValue :=
  if isTrueZero w then .zero (signOf w == 1#1) else .number (ibmValue w)

/-- The value of a binary32 pattern (R48). -/
def value32 (x : Single) : FloatValue :=
  let g := x.extractLsb' 31 1
  let X := x.extractLsb' 23 8
  let F := x.extractLsb' 0 23
  if X = 255#8 then (if F = 0#23 then .infinity (g == 1#1) else .nan)
  else if X = 0#8 then
    if F = 0#23 then .zero (g == 1#1) else .number (signFactor g * F.toNat * 2 ^ (-149 : Int))
  else .number (signFactor g * (1 + F.toNat / 2 ^ 23) * 2 ^ ((X.toNat : Int) - 127))

/-- The value of a binary64 pattern (R49). R49 names the subnormals and gives no formula for them: theirs is IEEE-754's
(PRESUMED, log entry 13); no response of the block holds one. -/
def value64 (y : Double) : FloatValue :=
  let g := y.extractLsb' 63 1
  let Y := y.extractLsb' 52 11
  let G := y.extractLsb' 0 52
  if Y = 2047#11 then (if G = 0#52 then .infinity (g == 1#1) else .nan)
  else if Y = 0#11 then
    if G = 0#52 then .zero (g == 1#1) else .number (signFactor g * G.toNat * 2 ^ (-1074 : Int))
  else .number (signFactor g * (1 + G.toNat / 2 ^ 52) * 2 ^ ((Y.toNat : Int) - 1023))

end Sys2Proof.Machine
end

