-- ==== Sys2Proof/Safety.lean ====
section
/-! DEFINITION. What holds of the block in every run (R17, R30, R88), and what the end of a run is (R132). -/

namespace Sys2Proof.Machine

/-- The capacity bound of R17. -/
def withinDepth (p : Params) (s : State) : Prop := s.occupancy ≤ p.depth

/-- What the host collected, then `done`, then the responses still to come from `pend`, are the responses to the requests
issued since the last reset, in order (R30, R41). -/
def inOrder (s : State) : Prop :=
  s.collected ++ s.done ++ s.pend.map execRequest = s.issued.map execRequest

/-- A response as R53 allows it: on overflow the pattern of R81, otherwise no all-ones exponent in either pattern (R88). -/
def legalResponse (r : Response) : Prop :=
  if r.ovf then
    (r.ieee32 = 0x7F800000#32 ∧ r.ieee64 = 0x7FF0000000000000#64) ∨
    (r.ieee32 = 0xFF800000#32 ∧ r.ieee64 = 0xFFF0000000000000#64)
  else
    r.ieee32.extractLsb' 23 8 ≠ 0xFF#8 ∧ r.ieee64.extractLsb' 52 11 ≠ 0x7FF#11

/-- Every response the block holds is legal. -/
def doneLegal (s : State) : Prop := ∀ r ∈ s.done, legalResponse r

/-- The end state of a run: both queues empty, and one response collected for each request issued (R132). -/
def finished (s : State) : Prop := s.pend = [] ∧ s.done = [] ∧ s.collected.length = s.issued.length

/-- The block is full: the host's Issue is not enabled (R20, R126). -/
def full (p : Params) (s : State) : Prop := s.occupancy = p.depth

/-- A move by which the host neither collects nor resets (R126). -/
def neverCollects : Move → Bool
  | .issue _ => true
  | .convert => true
  | .collect => false
  | .edge pins _ => !pins.rst && !pins.rspReady

/-- A move without a reset (R30, R97). -/
def noReset : Move → Bool
  | .issue _ => true
  | .convert => true
  | .collect => true
  | .edge pins _ => !pins.rst

end Sys2Proof.Machine
end

