-- ==== Sys2Proof/Certificates/Slice0/Obligations.lean ====
section
/-! DEFINITION. The statements for the provers. -/

open Sys2Proof Sys2Proof.Machine

/-! ## Encodings -/

/-- Decoding an encoded instruction gives it back with its operand whole, and encoding what was decoded gives the request
back: no bit of an encoding is dropped (R50, R56, R61). -/
def Obligations.DecodeInvertsEncode : Prop :=
  (∀ i : Instr, i.wellFormed = true →
    decode (encode i) = i ∧ decodeNumber (encode i).toNat = .ok i ∧
    decodeTableWord 33 (encode i).toNat = some i ∧ decode (Request.unpack (encode i)).pack = i) ∧
  ∀ v : BitVec 33, encode (decode v) = v

/-- Each of the 2^33 requests is the encoding of exactly one operation, the decoder gives that operation, and executing it
answers a next state from every state (R57). -/
def Obligations.EveryRequestIsOneOperation : Prop :=
  ∀ v : BitVec 33, ∃ i : Instr,
    encode i = v ∧ (∀ j : Instr, encode j = v → j = i) ∧ decode v = i ∧ decodeNumber v.toNat = .ok i ∧
    ∀ s : State, ∃ t, exec i s = .next t

/-- A number of more than 33 bits is no request, and every other number is one (R58). -/
def Obligations.OnlyThirtyThreeBitsDecode : Prop :=
  ∀ v : Nat,
    (v < 2 ^ 33 → ∃ i, decodeNumber v = .ok i ∧ (encode i).toNat = v) ∧
    (2 ^ 33 ≤ v → decodeNumber v = .error .notARequest)

/-- The opcode map: request bit 32 alone selects the operation, and bits 31..0 are its operand (R56). -/
def Obligations.ModeBitSelectsOperation : Prop :=
  opcodeMap.map (·.mnemonic) = ["decode_one", "decode_direct"] ∧
  ∀ v : BitVec 33,
    (v &&& 0x100000000#33 = 0x000000000#33 → decode v = .decodeOne (v.extractLsb' 0 32)) ∧
    (v &&& 0x100000000#33 = 0x100000000#33 → decode v = .decodeDirect (v.extractLsb' 0 32)) ∧
    (v &&& 0x100000000#33 = 0x000000000#33 ∨ v &&& 0x100000000#33 = 0x100000000#33)

/-- Words written out from R61 and R83 decode to the operations they stand for. -/
def Obligations.WrittenWordsDecode : Prop :=
  decode 0x0C2700000#33 = .decodeOne 0xC2700000#32 ∧
  decode 0x041100000#33 = .decodeOne 0x41100000#32 ∧
  decode 0x100100000#33 = .decodeDirect 0x00100000#32 ∧
  decode 0x1C2700000#33 = .decodeDirect 0xC2700000#32

/-- The 97 bits of a response (R52): each field at its place, and nothing else. -/
def Obligations.ResponseFieldPlaces : Prop :=
  (∀ r : Response,
    r.pack.getLsbD 96 = r.ovf ∧ r.pack.extractLsb' 32 64 = r.ieee64 ∧ r.pack.extractLsb' 0 32 = r.ieee32 ∧
    Response.unpack r.pack = r) ∧
  ∀ v : BitVec 97, (Response.unpack v).pack = v

/-! ## The datapath -/

/-- The fields of the word, by the source's shifts and masks, in and out of place (R54). -/
def Obligations.WordFieldExtraction : Prop :=
  ∀ w : Word,
    (signOf w).toNat = ((w >>> 31) &&& 1#32).toNat ∧
    (exponentOf w).toNat = ((w >>> 24) &&& 0x7F#32).toNat ∧
    (mantissaOf w).toNat = (w &&& 0x00FFFFFF#32).toNat ∧
    w &&& 0x80000000#32 = signOf w ++ 0#31 ∧
    w &&& 0x7F000000#32 = 0#1 ++ exponentOf w ++ 0#24 ∧
    topNibble w = (mantissaOf w).extractLsb' 20 4 ∧
    (w &&& 0x00F00000#32 = 0#32 ↔ topNibble w = 0#4)

/-- The shift count is the number of shifts that bring the leading 1 to bit 23: 0..3 for normalized words, where it is
the source's `k`, and 4..23 for denormalized ones (R70). -/
def Obligations.ShiftCountFindsLeadingOne : Prop :=
  ∀ w : Word, mantissaOf w ≠ 0#24 →
    let M := mantissaOf w
    let n := lzc24 M
    n ≤ 23 ∧ M.getLsbD (23 - n) = true ∧ (∀ j, 23 - n < j → M.getLsbD j = false) ∧
    (isNormalized w = true → n ≤ 3 ∧ (sourceNormalizer M).2 = n) ∧
    (isDenormalized w = true → 4 ≤ n)

/-- The normalized significand has its leading 1 at bit 23 and loses no bit of the mantissa, and the fraction is the
rest, also in the source's working register (R71). -/
def Obligations.SignificandLosesNoBit : Prop :=
  ∀ M : BitVec 24, M ≠ 0#24 →
    let n := lzc24 M
    (significand M n).getLsbD 23 = true ∧
    (significand M n).toNat = M.toNat * 2 ^ n ∧
    (significand M n).toNat = 2 ^ 23 + (fraction M n).toNat ∧
    ((M ++ 0#8 : BitVec 32) <<< n).extractLsb' 8 23 = fraction M n

/-- The source's exponent formula, with the field in place, is `4·int(E) − 130 − n` (R72). -/
def Obligations.ExponentFormulaAgrees : Prop :=
  ∀ (w : Word) (n : Nat),
    computedExponent (exponentOf w) n = sourceExponent w n ∧
    computedExponent (exponentOf w) n = 4 * ((exponentOf w).toNat : Int) - 130 - (n : Int)

/-- The computed exponent lies in −153..378, both ends are reached, and 10 bits hold it (R73). -/
def Obligations.ExponentRange : Prop :=
  (∀ w : Word, mantissaOf w ≠ 0#24 →
    -153 ≤ wordExponent w ∧ wordExponent w ≤ 378 ∧ (BitVec.ofInt 10 (wordExponent w)).toInt = wordExponent w) ∧
  (∃ w : Word, mantissaOf w ≠ 0#24 ∧ wordExponent w = -153) ∧
  ∃ w : Word, mantissaOf w ≠ 0#24 ∧ wordExponent w = 378

/-- The source's shift loop: for a normalized word it stops with bit 31 set, `k = n ≤ 3` and the fraction in bits 30..8;
for a denormalized word it ends with `k = 4` when `n = 4` and `k = 5` when `n ≥ 5` (R82). -/
def Obligations.SourceLoopAgrees : Prop :=
  ∀ w : Word, mantissaOf w ≠ 0#24 →
    let M := mantissaOf w
    (isNormalized w = true →
      (sourceNormalizer M).1.getLsbD 31 = true ∧ (sourceNormalizer M).2 = lzc24 M ∧ lzc24 M ≤ 3 ∧
      (sourceNormalizer M).1.extractLsb' 8 23 = fraction M (lzc24 M)) ∧
    (isDenormalized w = true →
      (lzc24 M = 4 → (sourceNormalizer M).2 = 4) ∧ (5 ≤ lzc24 M → (sourceNormalizer M).2 = 5) ∧
      ¬ (sourceNormalizer M).2 < 4)

/-- The assembled pattern is the source's OR of the sign in place, the shifted exponent and the fraction, and it is the
pattern of every nonzero word (R78). -/
def Obligations.AssemblyIsSourceOr : Prop :=
  (∀ (w : Word) (X : BitVec 8) (F : BitVec 23), signOf w ++ X ++ F = sourceAssembly w X F) ∧
  ∀ w : Word, mantissaOf w ≠ 0#24 →
    let XF := clamp (wordExponent w) (fraction (mantissaOf w) (lzc24 (mantissaOf w)))
    (decodeOneResponse w).ieee32 = sourceAssembly w XF.1 XF.2

/-- `ovf` is set exactly when the assembled exponent field is all ones, which is exactly when `M ≠ 0` and `e ≥ 255`
(R79). -/
def Obligations.OverflowFlagMeaning : Prop :=
  ∀ w : Word,
    ((decodeOneResponse w).ovf = true ↔ (decodeOneResponse w).ieee32.extractLsb' 23 8 = 0xFF#8) ∧
    ((decodeOneResponse w).ovf = true ↔ mantissaOf w ≠ 0#24 ∧ 255 ≤ wordExponent w) ∧
    (mantissaOf w = 0#24 → (decodeOneResponse w).ovf = false)

/-- `Widen` keeps the value of every binary32 pattern: zeros, subnormals, normals, infinities and NaNs (the spec's own
general knowledge G1 to G3, for R80). -/
def Obligations.WideningIsExact : Prop := ∀ x : Single, value64 (widen x) = value32 x

/-! ## The two operations: completion, result, frame -/

/-- `DECODE_ONE` completes from every state with the response of R83 and changes nothing else: signed zero for `M = 0`
(R68), underflow (R74), overflow with its data (R75, R81), and the pattern in range, `e = 0` included (R76). -/
def Obligations.DecodeOneResult : Prop :=
  ∀ (w : Word) (s : State),
    let g := signOf w
    let M := mantissaOf w
    let n := lzc24 M
    let f := fraction M n
    let e := 4 * ((exponentOf w).toNat : Int) - 130 - (n : Int)
    (M = 0#24 →
      exec (.decodeOne w) s = .next { s with done := s.done ++ [⟨false, g ++ 0#31, g ++ 0#63⟩] }) ∧
    (M ≠ 0#24 → e < 0 →
      exec (.decodeOne w) s = .next { s with done := s.done ++ [⟨false, g ++ 0#31, g ++ 0#63⟩] }) ∧
    (M ≠ 0#24 → 255 ≤ e →
      exec (.decodeOne w) s =
        .next { s with done := s.done ++ [⟨true, g ++ 0xFF#8 ++ 0#23, g ++ 0x7FF#11 ++ 0#52⟩] }) ∧
    (M ≠ 0#24 → 0 ≤ e → e ≤ 254 →
      ∃ X : BitVec 8, (X.toNat : Int) = e ∧
        exec (.decodeOne w) s =
          .next { s with done := s.done ++ [⟨false, g ++ X ++ f, widen (g ++ X ++ f)⟩] })

/-- `DECODE_DIRECT` completes from every state with the response of R87 and changes nothing else: `ovf = 0`,
`ieee32 = 0`, and the binary64 pattern of R86, whose biased exponent lies in 743..1274. -/
def Obligations.DecodeDirectResult : Prop :=
  ∀ (w : Word) (s : State),
    let g := signOf w
    let M := mantissaOf w
    let n := lzc24 M
    let f := fraction M n
    (M = 0#24 →
      exec (.decodeDirect w) s = .next { s with done := s.done ++ [⟨false, 0x00000000#32, g ++ 0#63⟩] }) ∧
    (M ≠ 0#24 →
      ∃ Y : BitVec 11, (Y.toNat : Int) = 4 * ((exponentOf w).toNat : Int) + 766 - (n : Int) ∧
        743 ≤ Y.toNat ∧ Y.toNat ≤ 1274 ∧
        exec (.decodeDirect w) s =
          .next { s with done := s.done ++ [⟨false, 0x00000000#32, g ++ Y ++ (f ++ 0#29)⟩] })

/-- The frame of both operations and their purity: an operation has one response, the same from every state, and appends
it to `done`; the rest of `done`, `pend`, the host's lists and the schedule stay as they were (R38, R106). -/
def Obligations.OperationsArePure : Prop :=
  ∀ i : Instr, ∃ r : Response, ∀ s : State, ∃ t : State,
    exec i s = .next t ∧ t.done = s.done ++ [r] ∧ t.pend = s.pend ∧ t.wasReset = s.wasReset ∧
    t.issued = s.issued ∧ t.collected = s.collected ∧ t.earlier = s.earlier ∧ t.schedule = s.schedule ∧
    t.freeTick = s.freeTick

/-- `e = 0` (R77): the response succeeds with exponent field 0 and the fraction kept; its value is the subnormal
`f · 2^−149`, or a signed zero, and not the word's value, which is `(1 + f/2^23) · 2^−127`. -/
def Obligations.ZeroExponentPattern : Prop :=
  ∀ w : Word, mantissaOf w ≠ 0#24 → wordExponent w = 0 →
    let f := fraction (mantissaOf w) (lzc24 (mantissaOf w))
    (decodeOneResponse w).ovf = false ∧
    (decodeOneResponse w).ieee32 = signOf w ++ 0#8 ++ f ∧
    value32 (decodeOneResponse w).ieee32 =
      (if f = 0#23 then .zero (signOf w == 1#1)
       else .number (signFactor (signOf w) * f.toNat * 2 ^ (-149 : Int))) ∧
    ibmValue w = signFactor (signOf w) * (1 + f.toNat / 2 ^ 23) * 2 ^ (-127 : Int) ∧
    value32 (decodeOneResponse w).ieee32 ≠ .number (ibmValue w)

/-- `DECODE_DIRECT` is exact for every word: its binary64 value is the word's value, a zero's sign being the word's, and
that value is `(−1)^s · (1 + f/2^23) · 2^(4E − 257 − n)` with the exponent in −280..251 (R85). -/
def Obligations.DirectValueIsExact : Prop :=
  ∀ w : Word,
    value64 (decodeDirectResponse w).ieee64 = ibmFloat w ∧
    (mantissaOf w ≠ 0#24 →
      let n := lzc24 (mantissaOf w)
      let e64 := 4 * ((exponentOf w).toNat : Int) - 257 - (n : Int)
      ibmValue w = signFactor (signOf w) * (1 + (fraction (mantissaOf w) n).toNat / 2 ^ 23) * 2 ^ e64 ∧
      -280 ≤ e64 ∧ e64 ≤ 251)

/-- `DECODE_ONE` is exact where `1 ≤ e ≤ 254`: the binary32 value is the word's value, the binary64 pattern is that of
`DECODE_DIRECT`, and its value is the word's too (R89). -/
def Obligations.OneValueIsExact : Prop :=
  ∀ w : Word, mantissaOf w ≠ 0#24 → 1 ≤ wordExponent w → wordExponent w ≤ 254 →
    value32 (decodeOneResponse w).ieee32 = .number (ibmValue w) ∧
    (decodeOneResponse w).ieee64 = (decodeDirectResponse w).ieee64 ∧
    value64 (decodeOneResponse w).ieee64 = .number (ibmValue w)

/-- `Overflow` is the only exception (R104, R105): `DECODE_ONE` alone raises it, exactly when `M ≠ 0` and
`4·int(E) − 130 − lzc24(M) ≥ 255`; it records the clamped patterns, and the host reads it as the typed error. -/
def Obligations.OverflowIsTheOnlyException : Prop :=
  ∀ r : Request,
    ((execRequest r).cause = .overflow ↔
      r.mode = false ∧ mantissaOf r.word ≠ 0#24 ∧
      255 ≤ 4 * ((exponentOf r.word).toNat : Int) - 130 - (lzc24 (mantissaOf r.word) : Int)) ∧
    ((execRequest r).cause = .overflow ↔ (execRequest r).ovf = true) ∧
    ((execRequest r).cause = .overflow →
      (execRequest r).ieee32 = signOf r.word ++ 0xFF#8 ++ 0#23 ∧
      (execRequest r).ieee64 = signOf r.word ++ 0x7FF#11 ++ 0#52) ∧
    ((execRequest r).result = .error .overflow ↔ (execRequest r).cause = .overflow)

/-! ## Derived properties of the conversions -/

/-- The overflow region (R90), with its three remarks. -/
def Obligations.OverflowRegion : Prop :=
  ∀ w : Word,
    let n := lzc24 (mantissaOf w)
    let E := (exponentOf w).toNat
    ((decodeOneResponse w).ovf = true ↔ mantissaOf w ≠ 0#24 ∧ 97 + n / 4 ≤ E) ∧
    ((decodeOneResponse w).ovf = true ↔ mantissaOf w ≠ 0#24 ∧ 385 ≤ 4 * (E : Int) - (n : Int)) ∧
    (isNormalized w = true → ((decodeOneResponse w).ovf = true ↔ 0x61 ≤ E)) ∧
    (mantissaOf w ≠ 0#24 → E = 0x7F → (decodeOneResponse w).ovf = true) ∧
    (E ≤ 0x60 → (decodeOneResponse w).ovf = false)

/-- The underflow region (R91): the words that flush to a signed zero, and its remarks on normalized words. -/
def Obligations.UnderflowRegion : Prop :=
  ∀ w : Word,
    let n := lzc24 (mantissaOf w)
    let E := (exponentOf w).toNat
    ((mantissaOf w = 0#24 ∨ E ≤ 32 + (n + 1) / 4) →
      decodeOneResponse w = ⟨false, signOf w ++ 0#31, signOf w ++ 0#63⟩) ∧
    (E ≤ 32 + (n + 1) / 4 ↔ wordExponent w < 0) ∧
    (isNormalized w = true → E ≤ 0x20 → wordExponent w < 0) ∧
    (isNormalized w = true → E = 0x21 → (wordExponent w < 0 ↔ n = 3))

/-- The computed exponent is 0 for exactly six pairs, of which only `(2, 33)` is normalized (R92). -/
def Obligations.ZeroExponentPairs : Prop :=
  ∀ w : Word, mantissaOf w ≠ 0#24 →
    let n := lzc24 (mantissaOf w)
    let E := (exponentOf w).toNat
    (wordExponent w = 0 ↔ (n, E) ∈ [(2, 33), (6, 34), (10, 35), (14, 36), (18, 37), (22, 38)]) ∧
    (wordExponent w = 0 → (isNormalized w = true ↔ (n, E) = (2, 33))) ∧
    (isNormalized w = true →
      (wordExponent w = 0 ↔ E = 0x21 ∧ 0x200000#24 ≤ mantissaOf w ∧ mantissaOf w ≤ 0x3FFFFF#24))

/-- The binary64 results of the two operations agree, for a nonzero word, exactly when `1 ≤ e ≤ 254`, and always for a
true zero (R95). -/
def Obligations.OneAgainstDirect : Prop :=
  ∀ w : Word,
    (mantissaOf w ≠ 0#24 →
      ((decodeOneResponse w).ieee64 = (decodeDirectResponse w).ieee64 ↔
        1 ≤ wordExponent w ∧ wordExponent w ≤ 254)) ∧
    (mantissaOf w = 0#24 → (decodeOneResponse w).ieee64 = (decodeDirectResponse w).ieee64)

/-- Round trip of normal binary32 values and of zeros through the encoder of R133: the result is the pattern with its low
`3 − r` fraction bits cleared, so it is exact when they are zero. -/
def Obligations.RoundTripOfNormals : Prop :=
  (∀ x : Single, 1 ≤ (x.extractLsb' 23 8).toNat → (x.extractLsb' 23 8).toNat ≤ 254 →
    let w := encodeNormal x
    33 ≤ (exponentOf w).toNat ∧ (exponentOf w).toNat ≤ 96 ∧
    encodeShift x ≤ 3 ∧ lzc24 (mantissaOf w) = 3 - encodeShift x ∧
    wordExponent w = ((x.extractLsb' 23 8).toNat : Int) ∧
    (decodeOneResponse w).ovf = false ∧
    (decodeOneResponse w).ieee32 = clearLow x (3 - encodeShift x) ∧
    x.toNat - (clearLow x (3 - encodeShift x)).toNat < 2 ^ (3 - encodeShift x) ∧
    (x &&& BitVec.ofNat 32 (2 ^ (3 - encodeShift x) - 1) = 0#32 → (decodeOneResponse w).ieee32 = x)) ∧
  (decodeOneResponse 0x00000000#32).ieee32 = 0x00000000#32 ∧
  (decodeOneResponse 0x80000000#32).ieee32 = 0x80000000#32

/-- No IBM word of a binary32 subnormal's value decodes to that subnormal: its computed exponent is at most 0 (R133,
C11). -/
def Obligations.SubnormalsDoNotRoundTrip : Prop :=
  ∀ (x : Single) (w : Word),
    x.extractLsb' 23 8 = 0#8 → x.extractLsb' 0 23 ≠ 0#23 → value32 x = .number (ibmValue w) →
    mantissaOf w ≠ 0#24 ∧ wordExponent w ≤ 0 ∧ (decodeOneResponse w).ovf = false ∧
    (decodeOneResponse w).ieee32 ≠ x

/-! ## The agents' steps -/

/-- Issue (R20): enabled below `DEPTH`, it appends the request to `pend` and nothing else in the block changes; at
`DEPTH` there is no such step, which the model answers with a fault (log entry 3). That the host notes the request is the
model's choice (log entry 5). -/
def Obligations.IssueStep : Prop :=
  ∀ (p : Params) (s : State) (r : Request) (ms : List Move),
    s.wasReset = true → s.schedule = .issue r :: ms →
    (s.pend.length + s.done.length < p.depth →
      stepWith p s =
        .next { s with
          pend := s.pend ++ [r], issued := s.issued ++ [r], schedule := ms, freeTick := s.freeTick + 1 }) ∧
    (p.depth ≤ s.pend.length + s.done.length → stepWith p s = .fault .issueNotEnabled)

/-- Convert (R21): the oldest request leaves `pend` and the response of the operation its mode selects goes to the tail of
`done`; with nothing pending there is no such step (log entry 3). -/
def Obligations.ConvertStep : Prop :=
  ∀ (p : Params) (s : State) (ms : List Move),
    s.wasReset = true → s.schedule = .convert :: ms →
    (∀ (r : Request) (rest : List Request), s.pend = r :: rest →
      stepWith p s =
        .next { s with
          pend := rest
          done := s.done ++ [if r.mode then decodeDirectResponse r.word else decodeOneResponse r.word]
          schedule := ms
          freeTick := s.freeTick + 1 }) ∧
    (s.pend = [] → stepWith p s = .fault .convertNotEnabled)

/-- Collect (R22): the oldest response leaves `done` and the host receives it; with nothing done there is no such step (log entry 3).
That the receipt stands in `collected` is the model's choice (log entry 5). -/
def Obligations.CollectStep : Prop :=
  ∀ (p : Params) (s : State) (ms : List Move),
    s.wasReset = true → s.schedule = .collect :: ms →
    (∀ (r : Response) (rest : List Response), s.done = r :: rest →
      stepWith p s =
        .next { s with
          done := rest, collected := s.collected ++ [r], schedule := ms, freeTick := s.freeTick + 1 }) ∧
    (s.done = [] → stepWith p s = .fault .collectNotEnabled)

/-- A step that converts runs the instruction its oldest request decodes to: at a scheduled Convert, after the schedule's
end (log entry 2), at an edge that does nothing else, and after an instruction is placed by `withFetchWord` (log entry
10). -/
def Obligations.StepRunsDecodedInstruction : Prop :=
  (∀ (s : State) (r : Request) (rest : List Request) (i : Instr),
    s.wasReset = true → s.pend = r :: rest → decodeNumber r.pack.toNat = .ok i → i.wellFormed = true →
    (∀ ms, s.schedule = .convert :: ms →
      step s = exec i { s with pend := rest, schedule := ms, freeTick := s.freeTick + 1 }) ∧
    (s.schedule = [] → step s = exec i { s with pend := rest, freeTick := s.freeTick + 1 }) ∧
    ∀ (m : Bool) (w : Word) ms, s.schedule = .edge ⟨false, false, m, w, false⟩ 1 :: ms →
      step s = exec i { s with pend := rest, schedule := ms, freeTick := s.freeTick + 1 }) ∧
  ∀ (s : State) (nbits w : Nat) (i : Instr), decodeTableWord nbits w = some i →
    step (s.withFetchWord nbits w) = exec i { s with wasReset := true, freeTick := s.freeTick + 1 }

/-- A rising edge without reset (R28): the response is collected and the request accepted as the two handshakes before
the edge say, and the converter converts as many of the requests pending before the edge as it takes. -/
def Obligations.EdgeTransfers : Prop :=
  ∀ (p : Params) (s : State) (pins : Pins) (k : Nat) (ms : List Move),
    s.wasReset = true → s.schedule = .edge pins k :: ms → pins.rst = false →
    let take := pins.rspReady && (ports p false s).rspValid
    let accept := pins.reqValid && (ports p false s).reqReady
    let r : Request := ⟨pins.reqMode, pins.reqWord⟩
    stepWith p s =
      .next { s with
        pend := s.pend.drop k ++ (if accept then [r] else [])
        done := (if take then s.done.tail else s.done) ++ (s.pend.take k).map execRequest
        issued := s.issued ++ (if accept then [r] else [])
        collected := s.collected ++ (if take then s.done.take 1 else [])
        schedule := ms
        freeTick := s.freeTick + 1 }

/-- The order in which the steps of one edge are applied does not change the result (R28), for every order of the
transfer out, the conversions of requests pending before the edge, and the transfer in. -/
def Obligations.EdgeOrderImmaterial : Prop :=
  ∀ (p : Params) (pins : Pins) (k : Nat) (s : State) (order : List (State → Result)),
    pins.rst = false → s.wasReset = true → k ≤ s.pend.length →
    order.Perm
      [collectIf (taken p pins s), convertUpTo k, issueIf (accepted p pins s) p.depth pins.request] →
    inSequence order s = edge p pins k s

/-- The output ports (R27): ready and valid by their formulas; the data are those of the oldest response while valid, and
free values otherwise (log entry 7). -/
def Obligations.OutputPorts : Prop :=
  ∀ (p : Params) (rst : Bool) (s : State),
    ((ports p rst s).reqReady = true ↔ rst = false ∧ s.pend.length + s.done.length < p.depth) ∧
    ((ports p rst s).rspValid = true ↔ rst = false ∧ s.done ≠ []) ∧
    (∀ r rest, rst = false → s.done = r :: rest →
      (ports p rst s).rspOvf = r.ovf ∧ (ports p rst s).rspIeee32 = r.ieee32 ∧
      (ports p rst s).rspIeee64 = r.ieee64) ∧
    ((ports p rst s).rspValid = false →
      (ports p rst s).rspOvf = Config.idleOvf s.freeTick ∧
      (ports p rst s).rspIeee32 = Config.idleIeee32 s.freeTick ∧
      (ports p rst s).rspIeee64 = Config.idleIeee64 s.freeTick)

/-- A response not taken stays on the ports (R128): whatever is accepted or converted at the edge, the next state shows
the same response. -/
def Obligations.ResponseStaysStable : Prop :=
  ∀ (p : Params) (s : State) (pins : Pins) (k : Nat) (ms : List Move),
    s.wasReset = true → s.schedule = .edge pins k :: ms → pins.rst = false → pins.rspReady = false →
    (ports p false s).rspValid = true →
    ∃ t, stepWith p s = .next t ∧ (ports p false t).rspValid = true ∧
      (ports p false t).rspOvf = (ports p false s).rspOvf ∧
      (ports p false t).rspIeee32 = (ports p false s).rspIeee32 ∧
      (ports p false t).rspIeee64 = (ports p false s).rspIeee64

/-- The request pins are sampled only at an accepting edge (R125): where the block is not ready, or nothing is offered,
they have no effect; at an accepting edge exactly the request present at it is accepted, once. -/
def Obligations.RequestSampling : Prop :=
  (∀ (p : Params) (s : State) (a b : Pins) (k : Nat),
    a.rst = b.rst → a.rspReady = b.rspReady →
    (a.reqValid = false ∨ (ports p a.rst s).reqReady = false) →
    (b.reqValid = false ∨ (ports p b.rst s).reqReady = false) →
    edge p a k s = edge p b k s) ∧
  ∀ (p : Params) (s : State) (a : Pins) (k : Nat),
    s.wasReset = true → a.reqValid = true → (ports p a.rst s).reqReady = true →
    ∃ t, edge p a k s = .next t ∧ t.pend = s.pend.drop k ++ [⟨a.reqMode, a.reqWord⟩]

/-! ## Reset -/

/-- The reset values (R29), for every legal choice of the parameters. The host's and the model's own fields are the
model's choice (log entries 1, 5 and 7) and not stated. -/
def Obligations.ResetValues : Prop :=
  State.reset.pend = [] ∧ State.reset.done = [] ∧ State.reset.pend.length + State.reset.done.length = 0 ∧
  ∀ p : Params, p.legal = true →
    (ports p true State.reset).reqReady = false ∧ (ports p false State.reset).reqReady = true ∧
    (∀ rst, (ports p rst State.reset).rspValid = false)

/-- An edge with `rst = 1` (R119): both queues are emptied, nothing offered is accepted or delivered, and both handshake
outputs are 0. It takes the block out of any state, also one no reset has reached. -/
def Obligations.ResetEdge : Prop :=
  ∀ (p : Params) (s : State) (pins : Pins) (k : Nat) (ms : List Move),
    s.schedule = .edge pins k :: ms → pins.rst = true →
    (ports p pins.rst s).reqReady = false ∧ (ports p pins.rst s).rspValid = false ∧
    ∃ t, stepWith p s = .next t ∧ t.pend = [] ∧ t.done = [] ∧ t.wasReset = true ∧
      t.earlier ++ t.collected = s.earlier ++ s.collected ∧ t.schedule = ms

/-- Before the first reset no run is defined (R122): every move but a reset edge is refused by name (log entry 4). -/
def Obligations.BeforeFirstReset : Prop :=
  ∀ (p : Params) (s : State), s.wasReset = false →
    (∀ pins k ms, s.schedule = .edge pins k :: ms → pins.rst = false) →
    stepWith p s = .refused .beforeFirstReset

/-- A reset establishes the invariants from any state whatever (R119), and what the host collected before stays with it;
after any further steps without reset, each response is the one to a request issued after the reset (R123). -/
def Obligations.WorkBeforeResetIsLost : Prop :=
  ∀ (p : Params) (s t u : State) (pins : Pins) (k n : Nat) (ms : List Move),
    s.schedule = .edge pins k :: ms → pins.rst = true → ms.all noReset = true →
    stepWith p s = .next t → runWith p n t = .next u →
    inOrder t ∧ withinDepth p t ∧ doneLegal t ∧
    u.earlier = s.earlier ++ s.collected ∧ u.collected <+: u.issued.map execRequest

/-! ## Invariants and whole-machine rules -/

/-- The invariants hold at reset, for every legal choice of the parameters. -/
def Obligations.ResetMeetsInvariants : Prop :=
  ∀ p : Params, p.legal = true →
    withinDepth p State.reset ∧ inOrder State.reset ∧ doneLegal State.reset

/-- Every step keeps `length(pend) + length(done) ≤ DEPTH` (R17). -/
def Obligations.OccupancyNeverExceedsDepth : Prop :=
  ∀ s t : State, withinDepth Config.params s → step s = .next t → withinDepth Config.params t

/-- Every step keeps the order of responses: what the host collected, then `done`, then the responses of `pend`, are those
of the requests issued since reset (R41). So the k-th response collected is that of the k-th request issued. -/
def Obligations.ResponsesInRequestOrder : Prop :=
  (∀ s t : State, inOrder s → step s = .next t → inOrder t) ∧
  ∀ (s : State) (k : Nat), inOrder s → k < s.collected.length →
    s.collected[k]? = s.issued[k]?.map execRequest

/-- Every step keeps every held response legal: on overflow exactly the patterns of R81, otherwise a finite number in
both formats (R53, R88). -/
def Obligations.HeldResponsesStayLegal : Prop :=
  (∀ i : Instr, legalResponse (instrResponse i)) ∧
  ∀ s t : State, doneLegal s → step s = .next t → doneLegal t

/-- In any run, of any number of steps, from any state in order, and for every choice of the parameters, the collected
sequence is a prefix of `map Exec` of the requests issued since the last reset (R30). -/
def Obligations.CollectedIsPrefixOfIssued : Prop :=
  (∀ (p : Params) (k : Nat) (s t : State), inOrder s → runWith p k s = .next t →
    t.collected <+: t.issued.map execRequest) ∧
  ∀ (k : Nat) (s t : State), inOrder s → Host.Core.run core k s = .next t →
    t.collected <+: t.issued.map execRequest

/-- Requests are independent (R42): whatever is pending is converted to the end, an overflow among it or not, and each
response is that of its own request alone, by its mode and word. So the response to a request is the same in any two
blocks, however many other requests are before and behind it in either, and whatever the two blocks hold besides. -/
def Obligations.RequestsAreIndependent : Prop :=
  (∀ (p : Params) (s : State) (ms : List Move),
    s.wasReset = true → s.schedule = List.replicate s.pend.length .convert ++ ms →
    runWith p s.pend.length s =
      .next { s with
        pend := []
        done := s.done ++
          s.pend.map (fun r => if r.mode then decodeDirectResponse r.word else decodeOneResponse r.word)
        schedule := ms
        freeTick := s.freeTick + s.pend.length }) ∧
  ∀ (p q : Params) (s u : State) (before after before' after' : List Request) (r : Request),
    s.wasReset = true → s.pend = before ++ r :: after → s.schedule = List.replicate s.pend.length .convert →
    u.wasReset = true → u.pend = before' ++ r :: after' → u.schedule = List.replicate u.pend.length .convert →
    ∃ t v, runWith p s.pend.length s = .next t ∧ runWith q u.pend.length u = .next v ∧
      t.done[s.done.length + before.length]? = some (execRequest r) ∧
      v.done[u.done.length + before'.length]? = t.done[s.done.length + before.length]?

/-- Nothing but the queues survives a step (R23): where two states agree in the queues, in having been reset and in the
schedule, then whatever the host's lists and the model's counter hold (log entries 5 and 7), their steps agree in the
same, both going on or both stopping for the same reason, and so do their handshake outputs. -/
def Obligations.QueuesAreAllThatSurvives : Prop :=
  ∀ (p : Params) (s u : State),
    s.pend = u.pend → s.done = u.done → s.wasReset = u.wasReset → s.schedule = u.schedule →
    (∀ t, stepWith p s = .next t → ∃ v, stepWith p u = .next v ∧
      t.pend = v.pend ∧ t.done = v.done ∧ t.wasReset = v.wasReset ∧ t.schedule = v.schedule) ∧
    (∀ f, stepWith p s = .fault f → stepWith p u = .fault f) ∧
    (∀ r, stepWith p s = .refused r → stepWith p u = .refused r) ∧
    ∀ rst, (ports p rst s).reqReady = (ports p rst u).reqReady ∧ (ports p rst s).rspValid = (ports p rst u).rspValid

/-- Weak fairness (R21, R126) as the model bounds it (log entry 2): once the schedule is at its end, as many steps as
requests are pending turn each of them, in order, into a response behind those already done. With nothing pending the
block idles (R118, R121): a step changes neither the queues nor the host's lists, only the model's counter (log entry
7). -/
def Obligations.PendingBecomesDone : Prop :=
  (∀ s : State, s.wasReset = true → s.schedule = [] →
    ∃ t, Host.Core.run core s.pend.length s = .next t ∧ t.pend = [] ∧
      t.done = s.done ++ s.pend.map execRequest ∧ t.collected = s.collected ∧ t.issued = s.issued) ∧
  ∀ s : State, s.wasReset = true → s.schedule = [] → s.pend = [] →
    step s = .next { s with freeTick := s.freeTick + 1 }

/-- A full block whose host never collects nor resets (R101, R126): after any number of steps it is still full, nothing
more was issued, and Issue has no step, which the model answers with a fault (log entry 3). -/
def Obligations.FullBlockIsStuckForIssue : Prop :=
  ∀ (p : Params) (k : Nat) (s t : State), full p s → s.schedule.all neverCollects = true →
    runWith p k s = .next t →
    full p t ∧ t.issued = s.issued ∧ t.collected = s.collected ∧
    ∀ r : Request, issue p.depth r t = .fault .issueNotEnabled

/-- Step by step at most one request is issued and at most one response collected (R28, R130). -/
def Obligations.OneTransferEachWay : Prop :=
  ∀ s t : State, step s = .next t →
    (t.issued = [] ∧ t.collected = [] ∧ t.earlier = s.earlier ++ s.collected ∧ t.pend = [] ∧ t.done = []) ∨
    (t.earlier = s.earlier ∧ (∃ a : Option Request, t.issued = s.issued ++ a.toList) ∧
      ∃ c : Option Response, t.collected = s.collected ++ c.toList ∧ ∀ r ∈ c, s.done.head? = some r)

/-! ## Batches, programs, lanes, timing, several blocks -/

/-- `DECODE_MANY` (R96, R97, R98): for every legal choice of the parameters, the batch run one element at a time,
which is the model's choice among the host's schedules, ends with both queues empty and the host holding exactly the
`DECODE_ONE` responses of its words, in order. -/
def Obligations.BatchYieldsEveryResult : Prop :=
  ∀ (p : Params) (ws : List Word), p.legal = true →
    ∃ t, runWith p (3 * ws.length) (State.scheduled (sequential (expandMany ws))) = .next t ∧
      t.collected = ws.map decodeOneResponse ∧ t.collected.length = ws.length ∧ t.pend = [] ∧ t.done = [] ∧
      t.schedule = []

/-- The end of a run (R132): under every schedule without reset from the reset state, where the host has issued every
request of the program and collected as many responses, both queues are empty and the result is `map Exec` over the
program's requests; and every program, of any mix of modes, has such a run for every legal choice of the parameters. -/
def Obligations.ProgramResult : Prop :=
  (∀ (p : Params) (rs : List Request) (moves : List Move) (k : Nat) (t : State), moves.all noReset = true →
    runWith p k (State.scheduled moves) = .next t → t.issued = rs → t.collected.length = rs.length →
    t.pend = [] ∧ t.done = [] ∧ t.collected = rs.map execRequest) ∧
  ∀ (p : Params) (rs : List Request), p.legal = true →
    (sequential rs).all noReset = true ∧
    ∃ t, runWith p (3 * rs.length) (State.scheduled (sequential rs)) = .next t ∧ finished t ∧
      t.issued = rs ∧ t.collected = rs.map execRequest

/-- Requests of any mix of modes may be issued at consecutive edges, and at the same edges at which responses are
collected (R129). With the edges counted (log entry 8), a block of any `LATENCY` and of a depth of at least
`LATENCY + 2` takes a request at every edge and loses none, and the last response is collected `LATENCY + 1` edges after
the last request, one edge after its conversion (R28, R130). With `LATENCY = 1` the same edges are a schedule of the
step. -/
def Obligations.StreamingCompletes : Prop :=
  (∀ (p : Params) (rs : List Request), p.legal = true → p.latency + 2 ≤ p.depth →
    ∃ t, timedRun p (streaming rs (p.latency + 1)) Timed.reset = .next t ∧
      t.now = rs.length + (p.latency + 1) ∧ finished t.state ∧
      t.state.issued = rs ∧ t.state.collected = rs.map execRequest) ∧
  ∀ (p : Params) (rs : List Request), p.latency = 1 → 3 ≤ p.depth →
    ∃ t, runWith p (rs.length + 2) (State.scheduled (edgeMoves (streaming rs 2))) = .next t ∧ finished t ∧
      t.issued = rs ∧ t.collected = rs.map execRequest

/-- `LANES` cannot be observed (R37): for every number of lanes the responses are those of the single converter, in
request order. The dealing of requests to lanes is the model's choice (log entry 9). -/
def Obligations.LanesAreNotObservable : Prop :=
  ∀ (lanes : Nat) (rs : List Request), 1 ≤ lanes → laneConvert lanes rs = rs.map execRequest

/-- The timed block, the model's own layer (log entry 8), refines the untimed one (R130): an edge of it is an edge of the block at which the converter takes no
more Convert steps than it was given. -/
def Obligations.TimedEdgeRefinesEdge : Prop :=
  ∀ (p : Params) (pins : Pins) (c : Nat) (t t' : Timed), timedEdge p pins c t = .next t' →
    t'.now = t.now + 1 ∧ ∃ n, n ≤ c ∧ edge p pins n t.state = .next t'.state

/-- `LATENCY` is respected (R28, R130), in the model's own layer that counts edges (log entry 8). A request's stamp is the
number of the edge that accepted it, and stays with it while it is pending. Where each pending request has its own stamp,
lower than the number of the coming edge, this stays so, and every request an edge converts was accepted at least
`LATENCY` edges before it. -/
def Obligations.LatencyIsRespected : Prop :=
  ∀ (p : Params) (pins : Pins) (c : Nat) (t t' : Timed),
    t.stamps.length = t.state.pend.length → (∀ a ∈ t.stamps, a < t.now) →
    timedEdge p pins c t = .next t' →
    t'.stamps.length = t'.state.pend.length ∧ (∀ a ∈ t'.stamps, a < t'.now) ∧ t'.now = t.now + 1 ∧
    (pins.rst = false →
      ∃ n, edge p pins n t.state = .next t'.state ∧ n ≤ t.state.pend.length ∧
        t'.state.pend = t.state.pend.drop n ++ (if accepted p pins t.state then [pins.request] else []) ∧
        t'.stamps = t.stamps.drop n ++ (if accepted p pins t.state then [t.now] else []) ∧
        ∀ a ∈ t.stamps.take n, a + p.latency ≤ t.now)

/-- The program text of any instructions assembles to their requests, in order (R61, R63), and a request is printed as its
mode digit and the eight digits of its word (R61). Whatever the operation, each digit of a word may be of either case;
one to eight digits stand for the word of their value, zero-extended; and a text with more than eight significant digits
is refused (R60). That a text with more than eight digits is refused also where its leading digits are zeros is the
model's choice (log entry 12). -/
def Obligations.AssemblerReadsPrintedPrograms : Prop :=
  (∀ is : List Instr,
    assemble (printProgram (is.map printLine)) = .ok (is.map fun i => Request.unpack (encode i))) ∧
  (∀ w : Word,
    printRequest (Request.unpack (encode (.decodeOne w))) = '0' :: 'x' :: '0' :: hexDigits 8 w.toNat ∧
    printRequest (Request.unpack (encode (.decodeDirect w))) = '0' :: 'x' :: '1' :: hexDigits 8 w.toNat) ∧
  ∀ ds : List (Fin 16 × Bool),
    let spelled (d : Fin 16 × Bool) : Char :=
      ((if d.2 then "0123456789abcdef" else "0123456789ABCDEF").toList[d.1.val]?).getD ' '
    let program (token : List Char) := printProgram [token ++ ' ' :: '0' :: 'x' :: ds.map spelled]
    (1 ≤ ds.length → ds.length ≤ 8 →
      ∃ w : Word, w.toNat = Nat.ofDigits 16 (ds.map (·.1.val)).reverse ∧
        assemble (program oneToken) = .ok [⟨false, w⟩] ∧ assemble (program directToken) = .ok [⟨true, w⟩] ∧
        assemble (program manyToken) = .ok [⟨false, w⟩]) ∧
    (8 < ds.length → ∀ token ∈ [oneToken, directToken, manyToken],
      assemble (program token) = .error .wordTooLong)

/-- A `decode_many` line assembles to what the `decode_one` lines of its words assemble to, with no word to no request
(R62). -/
def Obligations.ManyExpandsToOnes : Prop :=
  ∀ ws : List Word,
    assemble (printProgram [printMany ws]) = .ok (expandMany ws) ∧
    assemble (printProgram (ws.map fun w => printLine (.decodeOne w))) = .ok (expandMany ws)

/-- Several blocks share no state (R116), in the model's list of blocks (log entry 15). A step of one writes no other
block; and it reads no other block: it goes on, faults or is refused as that block alone does, and leaves that block as
the block's own step does. -/
def Obligations.BlocksShareNothing : Prop :=
  (∀ (p : Params) (i : Nat) (blocks blocks' : List State), systemStep p i blocks = .next blocks' →
    blocks'.length = blocks.length ∧ ∀ j, j ≠ i → blocks'[j]? = blocks[j]?) ∧
  ∀ (p : Params) (i : Nat) (blocks : List State) (s : State), blocks[i]? = some s →
    (∀ t, stepWith p s = .next t → ∃ blocks', systemStep p i blocks = .next blocks' ∧ blocks'[i]? = some t) ∧
    (∀ f, stepWith p s = .fault f → systemStep p i blocks = .fault f) ∧
    ∀ r, stepWith p s = .refused r → systemStep p i blocks = .refused r
end

