-- ==== Sys2Proof/Laws/Datapath.lean ====
section
/-! SUPPORT. What the functions of the datapath compute, in numbers. -/

namespace Sys2Proof.Machine

section Fields

variable (g : BitVec 1) (X : BitVec 8) (F : BitVec 23) (Y : BitVec 11) (G : BitVec 52)

@[simp] theorem assemble32_sign : (assemble32 g X F).extractLsb' 31 1 = g := by
  refine BitVec.eq_of_getLsbD_eq fun k hk => ?_
  have : k = 0 := by omega
  subst this
  simp only [assemble32, BitVec.getLsbD_extractLsb', BitVec.getLsbD_append]
  simp

@[simp] theorem assemble32_exponent : (assemble32 g X F).extractLsb' 23 8 = X := by
  refine BitVec.eq_of_getLsbD_eq fun k hk => ?_
  simp only [assemble32, BitVec.getLsbD_extractLsb', BitVec.getLsbD_append]
  simp [hk]

@[simp] theorem assemble32_fraction : (assemble32 g X F).extractLsb' 0 23 = F := by
  refine BitVec.eq_of_getLsbD_eq fun k hk => ?_
  simp only [assemble32, BitVec.getLsbD_extractLsb', BitVec.getLsbD_append]
  simp [hk]

@[simp] theorem assemble64_sign : (assemble64 g Y G).extractLsb' 63 1 = g := by
  refine BitVec.eq_of_getLsbD_eq fun k hk => ?_
  have : k = 0 := by omega
  subst this
  simp only [assemble64, BitVec.getLsbD_extractLsb', BitVec.getLsbD_append]
  simp

@[simp] theorem assemble64_exponent : (assemble64 g Y G).extractLsb' 52 11 = Y := by
  refine BitVec.eq_of_getLsbD_eq fun k hk => ?_
  simp only [assemble64, BitVec.getLsbD_extractLsb', BitVec.getLsbD_append]
  simp [hk]

@[simp] theorem assemble64_fraction : (assemble64 g Y G).extractLsb' 0 52 = G := by
  refine BitVec.eq_of_getLsbD_eq fun k hk => ?_
  simp only [assemble64, BitVec.getLsbD_extractLsb', BitVec.getLsbD_append]
  simp [hk]

/-- A pattern is the assembly of its fields. -/
theorem assemble32_fields (x : Single) :
    assemble32 (x.extractLsb' 31 1) (x.extractLsb' 23 8) (x.extractLsb' 0 23) = x := by
  refine BitVec.eq_of_getLsbD_eq fun k hk => ?_
  simp only [assemble32, BitVec.getLsbD_append, BitVec.getLsbD_extractLsb']
  split
  · simp [*]
  · split
    · have : 23 + (k - 23) = k := by omega
      simp [*]
    · have : 31 + (k - 23 - 8) = k := by omega
      have : k - 23 - 8 < 1 := by omega
      simp_all

/-- A binary64 zero is the assembly of zero fields. -/
theorem append_zero63 : (g ++ 0#63 : BitVec 64) = assemble64 g 0#11 0#52 := by
  refine BitVec.eq_of_getLsbD_eq fun k hk => ?_
  simp only [assemble64, BitVec.getLsbD_append]
  split <;> split <;> (try split) <;> simp_all <;> (try omega)
  have : k - 63 = k - 52 - 11 := by omega
  rw [this]

/-- A binary32 zero is the assembly of zero fields. -/
theorem append_zero31 : (g ++ 0#31 : BitVec 32) = assemble32 g 0#8 0#23 := by
  refine BitVec.eq_of_getLsbD_eq fun k hk => ?_
  simp only [assemble32, BitVec.getLsbD_append]
  split <;> split <;> (try split) <;> simp_all <;> (try omega)
  have : k - 31 = k - 23 - 8 := by omega
  rw [this]

end Fields

/-- The leading-zero count of a nonzero number of `k` bits brackets it between two powers of two. -/
theorem leadingZeros_bounds {n : Nat} (v : BitVec n) (k : Nat) (hk : v.toNat < 2 ^ k) (h0 : v.toNat ≠ 0) :
    leadingZeros v k < k ∧ 2 ^ (k - 1 - leadingZeros v k) ≤ v.toNat ∧ v.toNat < 2 ^ (k - leadingZeros v k) := by
  induction k with
  | zero => simp at hk; omega
  | succ k ih =>
    simp only [leadingZeros, BitVec.getLsbD, Nat.testBit_eq_decide_div_mod_eq, decide_eq_true_eq]
    split
    · rename_i hbit
      refine ⟨by omega, ?_, by simpa using hk⟩
      by_contra hlt
      have : v.toNat / 2 ^ k = 0 := Nat.div_eq_of_lt (by simpa using hlt)
      simp [this] at hbit
    · rename_i hbit
      have : v.toNat < 2 ^ k := by
        by_contra hge
        have h1 : v.toNat / 2 ^ k < 2 := Nat.div_lt_of_lt_mul (by rw [Nat.pow_succ] at hk; omega)
        have h2 : 1 ≤ v.toNat / 2 ^ k := (Nat.one_le_div_iff (by positivity)).mpr (by omega)
        have h3 : v.toNat / 2 ^ k = 1 := by omega
        simp [h3] at hbit
      obtain ⟨a, b, c⟩ := ih this
      refine ⟨by omega, ?_, ?_⟩
      · have : k + 1 - 1 - (leadingZeros v k + 1) = k - 1 - leadingZeros v k := by omega
        rw [this]; exact b
      · have : k + 1 - (leadingZeros v k + 1) = k - leadingZeros v k := by omega
        rw [this]; exact c

/-- The top bit of a nonzero number of `k` bits brackets it between two powers of two. -/
theorem topBit_bounds {n : Nat} (v : BitVec n) (k : Nat) (hk : v.toNat < 2 ^ k) (h0 : v.toNat ≠ 0) :
    topBit v k < k ∧ 2 ^ topBit v k ≤ v.toNat ∧ v.toNat < 2 ^ (topBit v k + 1) := by
  induction k with
  | zero => simp at hk; omega
  | succ k ih =>
    simp only [topBit, BitVec.getLsbD, Nat.testBit_eq_decide_div_mod_eq, decide_eq_true_eq]
    split
    · rename_i hbit
      refine ⟨by omega, ?_, hk⟩
      by_contra hlt
      have : v.toNat / 2 ^ k = 0 := Nat.div_eq_of_lt (by simpa using hlt)
      simp [this] at hbit
    · rename_i hbit
      have : v.toNat < 2 ^ k := by
        by_contra hge
        have h1 : v.toNat / 2 ^ k < 2 := Nat.div_lt_of_lt_mul (by rw [Nat.pow_succ] at hk; omega)
        have h2 : 1 ≤ v.toNat / 2 ^ k := (Nat.one_le_div_iff (by positivity)).mpr (by omega)
        have h3 : v.toNat / 2 ^ k = 1 := by omega
        simp [h3] at hbit
      obtain ⟨a, b, c⟩ := ih this
      exact ⟨by omega, b, c⟩

section Normalizer

variable {M : BitVec 24} (h : M ≠ 0#24)
include h

theorem mantissa_toNat_ne_zero : M.toNat ≠ 0 := fun h0 => h (BitVec.eq_of_toNat_eq (by simpa using h0))

/-- The shift count of a nonzero mantissa: it lies in 0..23, and shifting by it brings the mantissa into the upper half
of 24 bits (R70). -/
theorem lzc24_bounds : lzc24 M ≤ 23 ∧ 2 ^ 23 ≤ M.toNat * 2 ^ lzc24 M ∧ M.toNat * 2 ^ lzc24 M < 2 ^ 24 := by
  obtain ⟨hlt, hlo, hhi⟩ := leadingZeros_bounds M 24 M.isLt (mantissa_toNat_ne_zero h)
  change lzc24 M < 24 at hlt
  change 2 ^ (24 - 1 - lzc24 M) ≤ M.toNat at hlo
  change M.toNat < 2 ^ (24 - lzc24 M) at hhi
  refine ⟨by omega, ?_, ?_⟩
  · calc 2 ^ 23 = 2 ^ (24 - 1 - lzc24 M) * 2 ^ lzc24 M := by rw [← pow_add]; congr 1; omega
      _ ≤ _ := Nat.mul_le_mul_right _ hlo
  · calc M.toNat * 2 ^ lzc24 M < 2 ^ (24 - lzc24 M) * 2 ^ lzc24 M :=
          Nat.mul_lt_mul_of_pos_right hhi (by positivity)
      _ = 2 ^ 24 := by rw [← pow_add]; congr 1; omega

/-- The significand as a number (R71). -/
theorem significand_toNat : (significand M (lzc24 M)).toNat = M.toNat * 2 ^ lzc24 M := by
  simp only [significand, BitVec.toNat_shiftLeft, Nat.shiftLeft_eq]
  exact Nat.mod_eq_of_lt (lzc24_bounds h).2.2

/-- The fraction as a number: the significand without its hidden bit (R71). -/
theorem fraction_toNat : 2 ^ 23 + (fraction M (lzc24 M)).toNat = M.toNat * 2 ^ lzc24 M := by
  have := lzc24_bounds h
  simp only [fraction, BitVec.extractLsb'_toNat, significand_toNat h, Nat.shiftRight_zero]
  omega

end Normalizer

/-- The three cases of the clamp (R74 to R76). -/
theorem clamp_cases (e : Int) (f : BitVec 23) :
    (e < 0 ∧ clamp e f = (0#8, 0#23)) ∨ (255 ≤ e ∧ clamp e f = (255#8, 0#23)) ∨
    (0 ≤ e ∧ e ≤ 254 ∧ clamp e f = (BitVec.ofInt 8 e, f) ∧ ((BitVec.ofInt 8 e).toNat : Int) = e) := by
  unfold clamp
  split
  · exact Or.inl ⟨by omega, rfl⟩
  · split
    · exact Or.inr (Or.inl ⟨by omega, rfl⟩)
    · refine Or.inr (Or.inr ⟨by omega, by omega, rfl, ?_⟩)
      simp only [BitVec.toNat_ofInt]
      omega

/-- The pattern and the flag of a word with a nonzero mantissa. -/
theorem conv32_nonzero {w : Word} (h : mantissaOf w ≠ 0#24) :
    conv32 w =
      (let XF := clamp (wordExponent w) (fraction (mantissaOf w) (lzc24 (mantissaOf w)))
       (assemble32 (signOf w) XF.1 XF.2, XF.1 == 255#8)) := by
  simp [conv32, isTrueZero, h, wordExponent, overflowFlag]

/-- The pattern and the flag of a true zero (R68). -/
theorem conv32_zero {w : Word} (h : mantissaOf w = 0#24) : conv32 w = (assemble32 (signOf w) 0#8 0#23, false) := by
  simp [conv32, isTrueZero, h]

/-- Widening by the fields of the pattern (R80). -/
theorem widen_assemble32 (g : BitVec 1) (X : BitVec 8) (F : BitVec 23) :
    widen (assemble32 g X F) =
      if X = 0#8 ∧ F = 0#23 then assemble64 g 0#11 0#52
      else if X = 0#8 then
        assemble64 g (BitVec.ofNat 11 (topBit F 23 + 874))
          (BitVec.ofNat 52 ((F.toNat - 2 ^ topBit F 23) * 2 ^ (52 - topBit F 23)))
      else if X = 255#8 then assemble64 g 0x7FF#11 (F ++ 0#29)
      else assemble64 g (BitVec.ofNat 11 (X.toNat + 896)) (F ++ 0#29) := by
  simp only [widen, assemble32_sign, assemble32_exponent, assemble32_fraction, append_zero63]

end Sys2Proof.Machine
end

