-- ==== Sys2Proof/Laws/State.lean ====
section
/-! SUPPORT. What each named change of the state does to each field. -/

namespace Sys2Proof.Machine

variable (s : State)

@[simp] theorem State.respond_pend (r : Response) : (s.respond r).pend = s.pend := rfl
@[simp] theorem State.respond_done (r : Response) : (s.respond r).done = s.done ++ [r] := rfl
@[simp] theorem State.respond_wasReset (r : Response) : (s.respond r).wasReset = s.wasReset := rfl
@[simp] theorem State.respond_issued (r : Response) : (s.respond r).issued = s.issued := rfl
@[simp] theorem State.respond_collected (r : Response) : (s.respond r).collected = s.collected := rfl
@[simp] theorem State.respond_earlier (r : Response) : (s.respond r).earlier = s.earlier := rfl
@[simp] theorem State.respond_schedule (r : Response) : (s.respond r).schedule = s.schedule := rfl
@[simp] theorem State.respond_freeTick (r : Response) : (s.respond r).freeTick = s.freeTick := rfl

@[simp] theorem State.accept_pend (r : Request) : (s.accept r).pend = s.pend ++ [r] := rfl
@[simp] theorem State.accept_done (r : Request) : (s.accept r).done = s.done := rfl
@[simp] theorem State.accept_wasReset (r : Request) : (s.accept r).wasReset = s.wasReset := rfl
@[simp] theorem State.accept_issued (r : Request) : (s.accept r).issued = s.issued ++ [r] := rfl
@[simp] theorem State.accept_collected (r : Request) : (s.accept r).collected = s.collected := rfl
@[simp] theorem State.accept_earlier (r : Request) : (s.accept r).earlier = s.earlier := rfl
@[simp] theorem State.accept_schedule (r : Request) : (s.accept r).schedule = s.schedule := rfl
@[simp] theorem State.accept_freeTick (r : Request) : (s.accept r).freeTick = s.freeTick := rfl

@[simp] theorem State.dropPend_pend : (s.dropPend).pend = s.pend.tail := rfl
@[simp] theorem State.dropPend_done : (s.dropPend).done = s.done := rfl
@[simp] theorem State.dropPend_wasReset : (s.dropPend).wasReset = s.wasReset := rfl
@[simp] theorem State.dropPend_issued : (s.dropPend).issued = s.issued := rfl
@[simp] theorem State.dropPend_collected : (s.dropPend).collected = s.collected := rfl
@[simp] theorem State.dropPend_earlier : (s.dropPend).earlier = s.earlier := rfl
@[simp] theorem State.dropPend_schedule : (s.dropPend).schedule = s.schedule := rfl
@[simp] theorem State.dropPend_freeTick : (s.dropPend).freeTick = s.freeTick := rfl

@[simp] theorem State.deliver_pend (r : Response) : (s.deliver r).pend = s.pend := rfl
@[simp] theorem State.deliver_done (r : Response) : (s.deliver r).done = s.done.tail := rfl
@[simp] theorem State.deliver_wasReset (r : Response) : (s.deliver r).wasReset = s.wasReset := rfl
@[simp] theorem State.deliver_issued (r : Response) : (s.deliver r).issued = s.issued := rfl
@[simp] theorem State.deliver_collected (r : Response) : (s.deliver r).collected = s.collected ++ [r] := rfl
@[simp] theorem State.deliver_earlier (r : Response) : (s.deliver r).earlier = s.earlier := rfl
@[simp] theorem State.deliver_schedule (r : Response) : (s.deliver r).schedule = s.schedule := rfl
@[simp] theorem State.deliver_freeTick (r : Response) : (s.deliver r).freeTick = s.freeTick := rfl

@[simp] theorem State.resetEdge_pend : (s.resetEdge).pend = [] := rfl
@[simp] theorem State.resetEdge_done : (s.resetEdge).done = [] := rfl
@[simp] theorem State.resetEdge_wasReset : (s.resetEdge).wasReset = true := rfl
@[simp] theorem State.resetEdge_issued : (s.resetEdge).issued = [] := rfl
@[simp] theorem State.resetEdge_collected : (s.resetEdge).collected = [] := rfl
@[simp] theorem State.resetEdge_earlier : (s.resetEdge).earlier = s.earlier ++ s.collected := rfl
@[simp] theorem State.resetEdge_schedule : (s.resetEdge).schedule = s.schedule := rfl
@[simp] theorem State.resetEdge_freeTick : (s.resetEdge).freeTick = s.freeTick := rfl

@[simp] theorem State.advance_pend : (s.advance).pend = s.pend := rfl
@[simp] theorem State.advance_done : (s.advance).done = s.done := rfl
@[simp] theorem State.advance_wasReset : (s.advance).wasReset = s.wasReset := rfl
@[simp] theorem State.advance_issued : (s.advance).issued = s.issued := rfl
@[simp] theorem State.advance_collected : (s.advance).collected = s.collected := rfl
@[simp] theorem State.advance_earlier : (s.advance).earlier = s.earlier := rfl
@[simp] theorem State.advance_schedule : (s.advance).schedule = s.schedule.tail := rfl
@[simp] theorem State.advance_freeTick : (s.advance).freeTick = s.freeTick + 1 := rfl

@[simp] theorem State.withNextRequest_pend (r : Request) : (s.withNextRequest r).pend = r :: s.pend := rfl
@[simp] theorem State.withNextRequest_done (r : Request) : (s.withNextRequest r).done = s.done := rfl
@[simp] theorem State.withNextRequest_wasReset (r : Request) : (s.withNextRequest r).wasReset = true := rfl
@[simp] theorem State.withNextRequest_issued (r : Request) : (s.withNextRequest r).issued = s.issued := rfl
@[simp] theorem State.withNextRequest_collected (r : Request) : (s.withNextRequest r).collected = s.collected := rfl
@[simp] theorem State.withNextRequest_earlier (r : Request) : (s.withNextRequest r).earlier = s.earlier := rfl
@[simp] theorem State.withNextRequest_schedule (r : Request) : (s.withNextRequest r).schedule = .convert :: s.schedule := rfl
@[simp] theorem State.withNextRequest_freeTick (r : Request) : (s.withNextRequest r).freeTick = s.freeTick := rfl

@[simp] theorem State.reset_pend : State.reset.pend = [] := rfl
@[simp] theorem State.reset_done : State.reset.done = [] := rfl
@[simp] theorem State.reset_wasReset : State.reset.wasReset = true := rfl
@[simp] theorem State.reset_issued : State.reset.issued = [] := rfl
@[simp] theorem State.reset_collected : State.reset.collected = [] := rfl
@[simp] theorem State.reset_earlier : State.reset.earlier = [] := rfl
@[simp] theorem State.reset_schedule : State.reset.schedule = [] := rfl
@[simp] theorem State.reset_freeTick : State.reset.freeTick = 0 := rfl

@[simp] theorem State.scheduled_pend (ms : List Move) : (State.scheduled ms).pend = [] := rfl
@[simp] theorem State.scheduled_done (ms : List Move) : (State.scheduled ms).done = [] := rfl
@[simp] theorem State.scheduled_wasReset (ms : List Move) : (State.scheduled ms).wasReset = true := rfl
@[simp] theorem State.scheduled_issued (ms : List Move) : (State.scheduled ms).issued = [] := rfl
@[simp] theorem State.scheduled_collected (ms : List Move) : (State.scheduled ms).collected = [] := rfl
@[simp] theorem State.scheduled_earlier (ms : List Move) : (State.scheduled ms).earlier = [] := rfl
@[simp] theorem State.scheduled_schedule (ms : List Move) : (State.scheduled ms).schedule = ms := rfl
@[simp] theorem State.scheduled_freeTick (ms : List Move) : (State.scheduled ms).freeTick = 0 := rfl

@[simp] theorem offering_rst (r : Option Request) : (offering r).rst = false := rfl
@[simp] theorem offering_reqValid (r : Option Request) : (offering r).reqValid = r.isSome := rfl
@[simp] theorem offering_rspReady (r : Option Request) : (offering r).rspReady = true := rfl

end Sys2Proof.Machine
end

