-- ==== Sys2Proof/Laws/Ops.lean ====
section
/-! SUPPORT. One lemma for each shared operation, saying all it can do, the inversion of a step, and what the assembler's
first readers do. -/

namespace Sys2Proof.Machine

section AndThen

variable {σ τ φ ρ : Type} (f : σ → Host.Outcome τ φ ρ)

@[simp] theorem andThen_next (s : σ) : andThen (.next s) f = f s := rfl
@[simp] theorem andThen_fault (r : φ) : andThen (.fault r) f = .fault r := rfl
@[simp] theorem andThen_refused (r : ρ) : andThen (.refused r) f = .refused r := rfl

theorem andThen_eq_next {o : Host.Outcome σ φ ρ} {t : τ} :
    andThen o f = .next t ↔ ∃ s, o = .next s ∧ f s = .next t := by
  cases o <;> simp

end AndThen

/-- An instruction's response goes to the tail of `done`, and nothing else changes. -/
theorem exec_eq (i : Instr) (s : State) : exec i s = .next (s.respond (instrResponse i)) := by
  cases i <;> rfl

theorem issue_enabled {depth : Nat} {r : Request} {s : State} (h : s.occupancy < depth) :
    issue depth r s = .next (s.accept r) := if_pos h

theorem issue_disabled {depth : Nat} {r : Request} {s : State} (h : depth ≤ s.occupancy) :
    issue depth r s = .fault .issueNotEnabled := if_neg (Nat.not_lt.mpr h)

theorem convert_cons {s : State} {r : Request} {rest : List Request} (h : s.pend = r :: rest) :
    convert s = .next (s.dropPend.respond (execRequest r)) := by
  simp [convert, h, exec_eq, execRequest]

theorem convert_nil {s : State} (h : s.pend = []) : convert s = .fault .convertNotEnabled := by
  simp [convert, h]

theorem collect_cons {s : State} {r : Response} {rest : List Response} (h : s.done = r :: rest) :
    collect s = .next (s.deliver r) := by
  simp [collect, h]

theorem collect_nil {s : State} (h : s.done = []) : collect s = .fault .collectNotEnabled := by
  simp [collect, h]

/-- What a step without reset does to the queues and to the host's lists: a response taken or not, `k` requests
converted, a request accepted or not. -/
def State.transfer (s : State) (take : Bool) (k : Nat) (acc : Option Request) : State :=
  { s with
    pend := s.pend.drop k ++ acc.toList
    done := (if take then s.done.tail else s.done) ++ (s.pend.take k).map execRequest
    issued := s.issued ++ acc.toList
    collected := s.collected ++ (if take then s.done.head?.toList else []) }

section Transfer

variable (s : State) (take : Bool) (k : Nat) (acc : Option Request)

@[simp] theorem State.transfer_pend : (s.transfer take k acc).pend = s.pend.drop k ++ acc.toList := rfl
@[simp] theorem State.transfer_done :
    (s.transfer take k acc).done =
      (if take then s.done.tail else s.done) ++ (s.pend.take k).map execRequest := rfl
@[simp] theorem State.transfer_wasReset : (s.transfer take k acc).wasReset = s.wasReset := rfl
@[simp] theorem State.transfer_issued : (s.transfer take k acc).issued = s.issued ++ acc.toList := rfl
@[simp] theorem State.transfer_collected :
    (s.transfer take k acc).collected =
      s.collected ++ (if take then s.done.head?.toList else []) := rfl
@[simp] theorem State.transfer_earlier : (s.transfer take k acc).earlier = s.earlier := rfl
@[simp] theorem State.transfer_schedule : (s.transfer take k acc).schedule = s.schedule := rfl
@[simp] theorem State.transfer_freeTick : (s.transfer take k acc).freeTick = s.freeTick := rfl

end Transfer

@[ext] theorem State.ext_fields {s t : State} (h1 : s.pend = t.pend) (h2 : s.done = t.done)
    (h3 : s.wasReset = t.wasReset) (h4 : s.issued = t.issued) (h5 : s.collected = t.collected)
    (h6 : s.earlier = t.earlier) (h7 : s.schedule = t.schedule) (h8 : s.freeTick = t.freeTick) : s = t := by
  cases s; cases t; simp_all

/-- Repeated Convert steps never stop, and convert the oldest `k` pending requests in order. -/
theorem convertUpTo_eq (k : Nat) (s : State) : convertUpTo k s = .next (s.transfer false k none) := by
  induction k generalizing s with
  | zero =>
    refine congrArg Host.Outcome.next ?_
    ext1 <;> simp
  | succ k ih =>
    unfold convertUpTo
    cases hp : s.pend with
    | nil =>
      refine congrArg Host.Outcome.next ?_
      ext1 <;> simp [hp]
    | cons r rest =>
      simp only [List.isEmpty_cons, Bool.false_eq_true, if_false, convert_cons hp, andThen_next, ih]
      refine congrArg Host.Outcome.next ?_
      ext1 <;> simp [hp]

/-- The two handshakes do not see the schedule. -/
@[simp] theorem accepted_advance (p : Params) (pins : Pins) (s : State) :
    accepted p pins s.advance = accepted p pins s := rfl

@[simp] theorem taken_advance (p : Params) (pins : Pins) (s : State) :
    taken p pins s.advance = taken p pins s := rfl

theorem accepted_iff {p : Params} {pins : Pins} {s : State} :
    accepted p pins s = true ↔ pins.reqValid = true ∧ pins.rst = false ∧ s.occupancy < p.depth := by
  simp [accepted, ports]

theorem taken_iff {p : Params} {pins : Pins} {s : State} :
    taken p pins s = true ↔ pins.rspReady = true ∧ pins.rst = false ∧ s.done ≠ [] := by
  cases h : pins.rst <;> simp [taken, ports, h]

/-- Everything an edge can answer with a next state. -/
theorem edge_cases {p : Params} {pins : Pins} {k : Nat} {s t : State} (h : edge p pins k s = .next t) :
    (pins.rst = true ∧ t = s.resetEdge) ∨
    (pins.rst = false ∧ s.wasReset = true ∧
      t = s.transfer (taken p pins s) k (if accepted p pins s then some pins.request else none)) := by
  unfold edge at h
  cases hr : pins.rst with
  | true =>
    simp only [hr, if_true, Host.Outcome.next.injEq] at h
    exact Or.inl ⟨rfl, h.symm⟩
  | false =>
    cases hw : s.wasReset with
    | false => simp [hr, hw] at h
    | true =>
      simp only [hr, hw, Bool.false_eq_true, if_false, Bool.not_true, inSequence, andThen_eq_next, collectIf,
        issueIf, convertUpTo_eq] at h
      obtain ⟨s1, h1, s2, h2, s3, h3, h4⟩ := h
      simp only [Host.Outcome.next.injEq] at h2 h4
      subst h2 h4
      refine Or.inr ⟨rfl, rfl, ?_⟩
      have collected_one : taken p pins s = true → ∃ r rest, s.done = r :: rest := by
        intro ht
        exact List.exists_cons_of_ne_nil (taken_iff.mp ht).2.2
      have first : s1 = s.transfer (taken p pins s) 0 none := by
        cases ht : taken p pins s with
        | false =>
          simp only [ht, Bool.false_eq_true, if_false, Host.Outcome.next.injEq] at h1
          subst h1
          ext1 <;> simp
        | true =>
          obtain ⟨r, rest, hd⟩ := collected_one ht
          simp only [ht, if_true, collect_cons hd, Host.Outcome.next.injEq] at h1
          subst h1
          ext1 <;> simp [hd]
      subst first
      cases ha : accepted p pins s with
      | false =>
        simp only [ha, Bool.false_eq_true, if_false, Host.Outcome.next.injEq] at h3
        subst h3
        ext1 <;> simp
      | true =>
        simp only [ha, if_true, issue] at h3
        split at h3
        · simp only [Host.Outcome.next.injEq] at h3
          subst h3
          ext1 <;> simp
        · cases h3

/-- An edge without reset, after the first reset, always answers a next state. -/
theorem edge_completes (p : Params) (pins : Pins) (k : Nat) (s : State) (hr : pins.rst = false)
    (hw : s.wasReset = true) :
    edge p pins k s =
      .next (s.transfer (taken p pins s) k (if accepted p pins s then some pins.request else none)) := by
  have total : ∃ t, edge p pins k s = .next t := by
    simp only [edge, hr, hw, Bool.false_eq_true, if_false, Bool.not_true, inSequence, andThen_eq_next, collectIf,
      issueIf, convertUpTo_eq]
    have first : ∃ s1, (if taken p pins s = true then collect s else .next s) = .next s1 ∧
        s1.occupancy ≤ s.occupancy ∧ s1.pend = s.pend := by
      cases ht : taken p pins s with
      | false => exact ⟨s, by simp, Nat.le_refl _, rfl⟩
      | true =>
        cases hd : s.done with
        | nil => exact absurd hd (taken_iff.mp ht).2.2
        | cons r rest =>
          exact ⟨s.deliver r, by simp [collect_cons hd], by simp [State.occupancy], rfl⟩
    obtain ⟨s1, h1, hocc, hpend⟩ := first
    have occ2 : (s1.transfer false k none).occupancy = s1.occupancy := by
      simp only [State.occupancy, State.transfer_pend, State.transfer_done, Option.toList_none, List.append_nil,
        Bool.false_eq_true, if_false, List.length_append, List.length_map, List.length_take, List.length_drop]
      omega
    cases ha : accepted p pins s with
    | false => exact ⟨_, s1, h1, _, rfl, _, if_neg (by simp), rfl⟩
    | true =>
      have room : s.occupancy < p.depth := by
        exact (accepted_iff.mp ha).2.2
      exact ⟨_, s1, h1, _, rfl, _, by rw [if_pos rfl]; exact issue_enabled (by omega), rfl⟩
  obtain ⟨t, ht⟩ := total
  obtain ⟨h, _⟩ | ⟨_, _, rfl⟩ := edge_cases ht
  · simp [hr] at h
  · exact ht

/-- Everything a step can answer with a next state: a reset edge, or a transfer. A response is taken only
by a move that collects, and a request accepted only below `DEPTH`. -/
theorem stepWith_cases {p : Params} {s t : State} (h : stepWith p s = .next t) :
    (∃ pins k ms, s.schedule = .edge pins k :: ms ∧ pins.rst = true ∧ t = s.advance.resetEdge) ∨
    (s.wasReset = true ∧ ∃ take k acc,
      (take = true → s.done ≠ [] ∧ ∃ m ms, s.schedule = m :: ms ∧ neverCollects m = false) ∧ (acc ≠ none → s.occupancy < p.depth) ∧
      t = s.advance.transfer take k acc) := by
  have convert_case : ∀ {u : State}, convert s.advance = .next u →
      u = s.advance.transfer false 1 none := by
    intro u hu
    cases hp : s.pend with
    | nil => simp [convert, hp] at hu
    | cons r rest =>
      rw [convert_cons (rest := rest) (r := r) (by simp [hp])] at hu
      cases hu
      ext1 <;> simp [hp]
  unfold stepWith at h
  split at h
  · simp only [settle, afterReset] at h
    split at h
    · refine Or.inr ⟨by simpa using ‹s.advance.wasReset = true›, ?_⟩
      split at h
      · cases h
        exact ⟨false, 0, none, by simp, by simp, by ext1 <;> simp⟩
      · exact ⟨false, 1, none, by simp, by simp, convert_case h⟩
    · cases h
  · rename_i m ms hs
    cases m with
    | issue r =>
      simp only [takeMove, afterReset, issue] at h
      split at h
      · split at h
        · cases h
          refine Or.inr ⟨by simpa using ‹s.advance.wasReset = true›, false, 0, some r, by simp, ?_, by ext1 <;> simp⟩
          intro _
          simpa [State.occupancy] using ‹s.advance.occupancy < p.depth›
        · cases h
      · cases h
    | convert =>
      simp only [takeMove, afterReset] at h
      split at h
      · exact Or.inr ⟨by simpa using ‹s.advance.wasReset = true›, false, 1, none, by simp, by simp, convert_case h⟩
      · cases h
    | collect =>
      simp only [takeMove, afterReset] at h
      split at h
      · refine Or.inr ⟨by simpa using ‹s.advance.wasReset = true›, ?_⟩
        cases hd : s.done with
        | nil => simp [collect, hd] at h
        | cons r rest =>
          rw [collect_cons (rest := rest) (r := r) (by simp [hd])] at h
          cases h
          exact ⟨true, 0, none, by simp [hs, neverCollects], by simp, by ext1 <;> simp [hd]⟩
      · cases h
    | edge pins k =>
      simp only [takeMove] at h
      obtain ⟨hr, rfl⟩ | ⟨hr, hw, rfl⟩ := edge_cases h
      · exact Or.inl ⟨pins, k, ms, hs, hr, rfl⟩
      · refine Or.inr ⟨by simpa using hw, _, k, _, ?_, ?_, rfl⟩
        · intro ht
          have ht' := taken_iff.mp ht
          exact ⟨ht'.2.2, _, _, hs, by simp [neverCollects, ht'.1]⟩
        · intro hn
          have ha : accepted p pins s = true := by
            by_contra hc
            simp [hc] at hn
          exact (accepted_iff.mp ha).2.2

/-- A property that holds of a state and that every step keeps holds after any number of steps. -/
theorem runWith_keeps {p : Params} {Inv : State → Prop}
    (keeps : ∀ s t, Inv s → stepWith p s = .next t → Inv t) :
    ∀ (k : Nat) (s t : State), Inv s → runWith p k s = .next t → Inv t := by
  intro k
  induction k with
  | zero => intro s t hs h; cases h; exact hs
  | succ k ih =>
    intro s t hs h
    obtain ⟨u, hu, ht⟩ := (andThen_eq_next _).mp h
    exact ih u t (keeps s u hs hu) ht

/-- A run of several steps is a run of the first and then of the rest. -/
theorem runWith_add (p : Params) (m n : Nat) (s : State) :
    runWith p (m + n) s = andThen (runWith p m s) (runWith p n) := by
  induction m generalizing s with
  | zero => simp [runWith]
  | succ m ih =>
    rw [Nat.succ_add, runWith, runWith]
    cases stepWith p s <;> simp [ih]

/-- A streaming host's pins sample exactly the request it offers. -/
theorem offering_some_request (r : Request) : (offering (some r)).request = r := rfl

/-- The printed digit of a value is read back as that value. -/
theorem hexValue_hexDigit (d : Nat) : hexValue (hexDigit d) = some (d % 16) := by
  have digits : ∀ k : Fin 16, hexValue (hexDigit k.val) = some k.val := by decide
  have reduced : hexDigit d = hexDigit (d % 16) := by simp [hexDigit]
  rw [reduced]
  exact digits ⟨d % 16, Nat.mod_lt d (by decide)⟩

/-- A token is read off the text that begins with it. -/
theorem afterToken_append (token cs : List Char) : afterToken token (token ++ cs) = some cs := by
  induction token <;> simp_all [afterToken]

/-- The host's run of the core is the run with the build's parameters. -/
theorem core_run_eq (k : Nat) (s : State) : Host.Core.run core k s = runWith Config.params k s := by
  induction k generalizing s with
  | zero => rfl
  | succ k ih =>
    have one : core.step s = stepWith Config.params s := rfl
    simp only [Host.Core.run, runWith, one]
    cases stepWith Config.params s with
    | next t => exact ih t
    | fault r => rfl
    | refused r => rfl

end Sys2Proof.Machine
end

