-- ==== Sys2Proof/Laws/PerInstr.lean ====
section
/-! SUPPORT. Facts about the instructions as syntax, one lemma for each constructor. -/

namespace Sys2Proof.Laws.OpcodeMap

/-- The encoding of an instruction matches its row of the opcode map, and the row is in the map (R56). -/
def Statement (i : Instr) : Prop := i.row.matches (encode i) = true ∧ i.row ∈ opcodeMap

/-- The mask selects bit 32 alone (R56). -/
theorem and_mask (m : BitVec 1) (w : Word) : (m ++ w : BitVec 33) &&& 0x100000000#33 = m ++ 0#32 := by
  have mask : ∀ k : Fin 33, (0x100000000#33).getLsbD k.val = decide (k.val = 32) := by decide
  refine BitVec.eq_of_getLsbD_eq fun k hk => ?_
  have := mask ⟨k, hk⟩
  simp only at this
  rw [BitVec.getLsbD_and, this, BitVec.getLsbD_append, BitVec.getLsbD_append]
  by_cases h : k < 32
  · simp [h, Nat.ne_of_lt h]
  · have : k = 32 := by omega
    simp [this]

theorem decodeOne (w : Word) : Statement (.decodeOne w) := by
  refine ⟨?_, by simp [opcodeMap, Instr.row]⟩
  simp only [Instr.row, OpcodeRow.matches, encode, and_mask]
  decide

theorem decodeDirect (w : Word) : Statement (.decodeDirect w) := by
  refine ⟨?_, by simp [opcodeMap, Instr.row]⟩
  simp only [Instr.row, OpcodeRow.matches, encode, and_mask]
  decide

end Sys2Proof.Laws.OpcodeMap
end

