-- ==== Sys2Proof/Tests/Slice0.lean ====
section
/-! SUPPORT. The model's own tests. Expected values are those of 95_test_vectors.md, named by its ids, or of the rule
named. The witness theorems show that the hypotheses of the statements can be met. -/

namespace Sys2Proof.Tests

open Sys2Proof Sys2Proof.Machine

/-! ## Helpers -/

/-- The next state, where there is one. -/
def nextOf {σ φ ρ : Type} : Host.Outcome σ φ ρ → Option σ
  | .next s => some s
  | .fault _ => none
  | .refused _ => none

/-- The requests, where a text assembles. -/
def requestsOf : Except AsmError (List Request) → Option (List Request)
  | .ok rs => some rs
  | .error _ => none

/-- The error, where a text does not assemble. -/
def errorOf : Except AsmError (List Request) → Option AsmError
  | .ok _ => none
  | .error e => some e

/-- A state with the given queues and schedule, otherwise as after reset. -/
def block (pend : List Request) (done : List Response) (moves : List Move) : State :=
  { State.reset with pend := pend, done := done, schedule := moves }

/-- The same, with the host's list of issued requests. -/
def blockFrom (issued pend : List Request) (done : List Response) (moves : List Move) : State :=
  { block pend done moves with issued := issued }

/-- The parameters of the interface vectors. -/
def deep (d : Nat) : Params := ⟨d, 1, 1⟩

/-- The request `a` of the interface vectors. -/
def reqA : Request := ⟨false, 0x41100000#32⟩
/-- The request `b`, which overflows. -/
def reqB : Request := ⟨false, 0x61100000#32⟩
/-- `Exec(a)`. -/
def rspA : Response := ⟨false, 0x3F800000#32, 0x3FF0000000000000#64⟩
/-- `Exec(b)`. -/
def rspB : Response := ⟨true, 0x7F800000#32, 0x7FF0000000000000#64⟩
/-- The pins of an edge without reset. -/
def pinsOf (valid : Bool) (w : Word) (ready : Bool) : Pins := ⟨false, valid, false, w, ready⟩
/-- The pins of a reset edge at which the host offers a request and would take a response. -/
def pinsReset : Pins := ⟨true, true, false, 0xC1100000#32, true⟩

/-! ## Well-formedness: an ill-formed term for each check -/

theorem test_params_depth_zero_refused : (⟨0, 1, 1⟩ : Params).legal = false := by decide
theorem test_params_latency_zero_refused : (⟨1, 0, 1⟩ : Params).legal = false := by decide
theorem test_params_lanes_zero_refused : (⟨1, 1, 0⟩ : Params).legal = false := by decide
theorem test_params_ones_legal : (⟨1, 1, 1⟩ : Params).legal = true := by decide
theorem test_request_of_34_bits_refused : isRequestNumber (2 ^ 33) = false := by decide
theorem test_every_instr_well_formed (i : Instr) : i.wellFormed = true := by cases i <;> rfl

/-! ## Decoding: words written out bit by bit from R50, R51 and the rows' encodings -/

theorem test_decode_one_bits :
    decode 0b0_1_1000010_011100000000000000000000#33 = .decodeOne 0xC2700000#32 := by decide
theorem test_decode_direct_bits :
    decode 0b1_0_0000000_000100000000000000000000#33 = .decodeDirect 0x00100000#32 := by decide
theorem test_decode_table_word : decodeTableWord 40 0x1C2700000 = some (.decodeDirect 0xC2700000#32) := by decide
theorem test_decode_too_wide : decodeTableWord 40 0x200000000 = none := by decide

/-! ## The two operations, at most two tests each (V12, V26, W6, W12) -/

theorem test_decode_one_source_example :
    decodeOneResponse 0xC2700000#32 = ⟨false, 0xC2E00000#32, 0xC05C000000000000#64⟩ := by decide
theorem test_decode_one_zero_exponent :
    decodeOneResponse 0x213FFFFF#32 = ⟨false, 0x007FFFFC#32, 0x380FFFFF00000000#64⟩ := by decide
theorem test_decode_direct_largest :
    decodeDirectResponse 0x7FFFFFFF#32 = ⟨false, 0x00000000#32, 0x4FAFFFFFE0000000#64⟩ := by decide
theorem test_decode_direct_small :
    decodeDirectResponse 0x213FFFFF#32 = ⟨false, 0x00000000#32, 0x380FFFFF80000000#64⟩ := by decide

/-! ## Widening (X7, X9), encoder (T5), printed forms (R64) and the source's loop (R82, 0x41080000) -/

theorem test_widen_least_subnormal : widen 0x00000001#32 = 0x36A0000000000000#64 := by decide
theorem test_widen_largest_subnormal : widen 0x007FFFFF#32 = 0x380FFFFFC0000000#64 := by decide
theorem test_encoder_largest : encodeNormal 0x7F7FFFFF#32 = 0x60FFFFFF#32 := by decide
theorem test_source_loop_denormalized : (sourceNormalizer (mantissaOf 0x41080000#32)).2 = 4 := by decide
theorem test_print_response : printResponse rspB = "OVERFLOW(0x7F800000, 0x7FF0000000000000)".toList := by decide

/-! ## The assembler (R59 to R62) -/

theorem test_assemble_comment_and_case :
    requestsOf (assemble "decode_one 0xa1200000    ; e = 0\n\n  decode_direct 0x0\n".toList) =
      some [⟨false, 0xA1200000#32⟩, ⟨true, 0#32⟩] := by decide
theorem test_assemble_many :
    requestsOf (assemble "decode_many 0x41100000, 0x61100000\ndecode_many\n".toList) = some [reqA, reqB] := by decide
theorem test_assemble_nine_digits_refused :
    errorOf (assemble "decode_one 0x123456789\n".toList) = some .wordTooLong := by decide
theorem test_assemble_trailing_refused :
    errorOf (assemble "decode_one 0x1 0x2\n".toList) = some .trailingText := by decide

/-- The digits of R60 in either case, and characters next to them that are none. -/
theorem test_hex_values :
    "09AFaf/:@G`g".toList.map hexValue =
      [some 0, some 9, some 10, some 15, some 10, some 15, none, none, none, none, none, none] := by decide

/-! ## Interface and reset, one step each (H1 to H10, P5) -/

theorem test_issue_h1 :
    nextOf (stepWith (deep 1) (block [] [] [.issue reqA])) =
      some { blockFrom [reqA] [reqA] [] [] with freeTick := 1 } := by decide
theorem test_issue_full_h2 : nextOf (stepWith (deep 1) (block [reqA] [] [.issue reqB])) = none := by decide
theorem test_convert_h7 :
    (nextOf (stepWith (deep 2) (block [reqA, reqB] [] [.convert]))).map (fun t => (t.pend, t.done)) =
      some ([reqB], [rspA]) := by decide
theorem test_collect_h8 :
    (nextOf (stepWith (deep 2) (block [reqB] [rspA] [.collect]))).map (fun t => (t.pend, t.done, t.collected)) =
      some ([reqB], [], [rspA]) := by decide
theorem test_edge_p5_3 :
    (nextOf (stepWith (deep 2) (block [reqB] [rspA] [.edge (pinsOf true 0xC1100000#32 true) 1]))).map
      (fun t => (t.pend, t.done, t.collected)) = some ([], [rspB], [rspA]) := by decide
theorem test_reset_wins_h9 :
    (nextOf (stepWith (deep 2) (block [reqB] [rspA] [.edge pinsReset 1]))).map (fun t => (t.pend, t.done, t.collected)) =
      some ([], [], []) := by decide
theorem test_timed_same_edge_not_converted :
    (nextOf (timedEdge (deep 2) (pinsOf true 0x41100000#32 false) 1 Timed.reset)).map
      (fun t => (t.state.pend, t.state.done, t.stamps)) = some ([reqA], [], [0]) := by decide
theorem test_timed_latency_two_waits :
    (nextOf (timedEdge ⟨2, 2, 1⟩ (pinsOf false 0#32 false) 1 ⟨block [reqA] [] [], [0], 1⟩)).map
      (fun t => t.state.pend) = some [reqA] := by decide
/-- R28 counts from the edge that issued the request: edge 5 converts the request of edge 3 and stamps its own. -/
theorem test_timed_stamp_of_accepting_edge :
    (nextOf (timedEdge ⟨2, 2, 1⟩ (pinsOf true 0x61100000#32 false) 1 ⟨block [reqA] [] [], [3], 5⟩)).map
      (fun t => (t.state.pend, t.state.done, t.stamps)) = some ([reqB], [rspA], [5]) := by decide
theorem test_lanes_three : laneConvert 3 [reqA, reqB, reqA, reqB] = [rspA, rspB, rspA, rspB] := by decide

/-- The instruction placed by `withFetchWord` is the one the first step after reset runs. -/
theorem test_first_step_after_reset :
    (nextOf (step (State.reset.withFetchWord 33 0x0C2700000))).map (·.done) =
      some [⟨false, 0xC2E00000#32, 0xC05C000000000000#64⟩] := by decide

/-! ## Witnesses: the hypotheses of each statement are met together -/

theorem witness_shift_count_normalized :
    mantissaOf 0x41100000#32 ≠ 0#24 ∧ isNormalized 0x41100000#32 = true := by decide
theorem witness_shift_count_denormalized :
    mantissaOf 0x41080000#32 ≠ 0#24 ∧ isDenormalized 0x41080000#32 = true ∧ lzc24 (mantissaOf 0x41080000#32) = 4 := by
  decide
theorem witness_source_loop_five :
    isDenormalized 0x41040000#32 = true ∧ 5 ≤ lzc24 (mantissaOf 0x41040000#32) := by decide
theorem witness_exponent_ends :
    wordExponent 0x00000001#32 = -153 ∧ wordExponent 0x7FFFFFFF#32 = 378 ∧ mantissaOf 0x00000001#32 ≠ 0#24 := by decide
theorem witness_decode_one_zero : mantissaOf 0x7F000000#32 = 0#24 := by decide
theorem witness_decode_one_underflow : mantissaOf 0x21100000#32 ≠ 0#24 ∧ wordExponent 0x21100000#32 = -1 := by decide
theorem witness_decode_one_lowest : mantissaOf 0x21200000#32 ≠ 0#24 ∧ wordExponent 0x21200000#32 = 0 := by decide
theorem witness_decode_one_one : mantissaOf 0x21400000#32 ≠ 0#24 ∧ wordExponent 0x21400000#32 = 1 := by decide
theorem witness_decode_one_highest : mantissaOf 0x60FFFFFF#32 ≠ 0#24 ∧ wordExponent 0x60FFFFFF#32 = 254 := by decide
theorem witness_decode_one_overflow : mantissaOf 0x61100000#32 ≠ 0#24 ∧ wordExponent 0x61100000#32 = 255 := by decide
theorem witness_mode_bits :
    (0x0FFFFFFFF#33 &&& 0x100000000#33 = 0x000000000#33) ∧ (0x100000000#33 &&& 0x100000000#33 = 0x100000000#33) := by
  decide
theorem witness_request_numbers : (2 ^ 33 - 1 : Nat) < 2 ^ 33 ∧ 2 ^ 33 ≤ (2 ^ 33 : Nat) := by decide
theorem witness_decode_direct_range :
    4 * ((exponentOf 0x00000001#32).toNat : Int) + 766 - lzc24 (mantissaOf 0x00000001#32) = 743 ∧
    4 * ((exponentOf 0x7FFFFFFF#32).toNat : Int) + 766 - lzc24 (mantissaOf 0x7FFFFFFF#32) = 1274 := by decide
theorem witness_overflow_request :
    (execRequest ⟨false, 0x61100000#32⟩).cause = .overflow ∧ (execRequest ⟨true, 0x61100000#32⟩).cause = .none := by
  decide
theorem witness_overflow_region :
    isNormalized 0x61100000#32 = true ∧ (exponentOf 0x61100000#32).toNat = 97 ∧
    mantissaOf 0x7F000001#32 ≠ 0#24 ∧ (exponentOf 0x7F000001#32).toNat = 0x7F ∧
    (exponentOf 0x60FFFFFF#32).toNat ≤ 0x60 := by decide
theorem witness_underflow_region :
    isNormalized 0x20FFFFFF#32 = true ∧ (exponentOf 0x20FFFFFF#32).toNat ≤ 0x20 ∧
    isNormalized 0x21100000#32 = true ∧ (exponentOf 0x21100000#32).toNat = 0x21 := by decide
theorem witness_zero_exponent_normalized :
    isNormalized 0x213FFFFF#32 = true ∧ wordExponent 0x213FFFFF#32 = 0 ∧
    isNormalized 0x22020000#32 = false ∧ wordExponent 0x22020000#32 = 0 := by decide
theorem witness_round_trip_ends :
    1 ≤ ((0x00800000#32).extractLsb' 23 8).toNat ∧ ((0x7F7FFFFF#32).extractLsb' 23 8).toNat ≤ 254 ∧
    encodeShift 0x3F800000#32 = 0 ∧ encodeShift 0x7F7FFFFF#32 = 3 ∧
    0x3F800008#32 &&& BitVec.ofNat 32 (2 ^ (3 - encodeShift 0x3F800008#32) - 1) = 0#32 := by decide

/-- The subnormal `2^−127` and its IBM word (T8). -/
theorem witness_subnormal :
    (0x00400000#32).extractLsb' 23 8 = 0#8 ∧ (0x00400000#32).extractLsb' 0 23 ≠ 0#23 ∧
    value32 0x00400000#32 = .number (ibmValue 0x21200000#32) := by
  refine ⟨by decide, by decide, ?_⟩
  have fields : (0x00400000#32).extractLsb' 31 1 = 0#1 ∧ (0x00400000#32).extractLsb' 23 8 = 0#8 ∧
      (0x00400000#32).extractLsb' 0 23 = 0x400000#23 := by decide
  have ibm : signOf 0x21200000#32 = 0#1 ∧ mantissaOf 0x21200000#32 = 0x200000#24 ∧ exponentOf 0x21200000#32 = 33#7 := by
    decide
  have notAllOnes : (0#8 : BitVec 8) ≠ 255#8 := by decide
  have notZero : (0x400000#23 : BitVec 23) ≠ 0#23 := by decide
  simp only [value32, ibmValue, signFactor, fields, ibm, notAllOnes, notZero, if_false, if_true]
  norm_num

theorem witness_issue_enabled :
    (block [] [] [.issue reqA]).wasReset = true ∧ (block [] [] [.issue reqA]).occupancy < (deep 1).depth := by decide
theorem witness_issue_disabled : (deep 1).depth ≤ (block [] [rspA] [.issue reqA]).occupancy := by decide
theorem witness_convert_nothing : nextOf (stepWith (deep 1) (block [] [rspA] [.convert])) = none := by decide
theorem witness_collect_nothing : nextOf (stepWith (deep 1) (block [reqA] [] [.collect])) = none := by decide

theorem witness_step_decodes :
    (decodeNumber (Request.pack reqA).toNat).toOption = some (.decodeOne reqA.word) ∧
    (block [reqA] [] [.convert]).pend = [reqA] ∧ (block [reqA] [] []).schedule = [] ∧
    (block [reqA] [] [.edge ⟨false, false, true, 0#32, false⟩ 1]).schedule = [.edge ⟨false, false, true, 0#32, false⟩ 1] ∧
    decodeTableWord 33 0x1C2700000 = some (.decodeDirect 0xC2700000#32) := by decide

theorem witness_edge_order :
    (pinsOf true 0#32 true).rst = false ∧ (block [reqA] [rspB] []).wasReset = true ∧
    1 ≤ (block [reqA] [rspB] []).pend.length ∧
    taken (deep 3) (pinsOf true 0#32 true) (block [reqA] [rspB] []) = true ∧
    accepted (deep 3) (pinsOf true 0#32 true) (block [reqA] [rspB] []) = true := by decide

/-- Any order of the three parts of an edge, for instance the reverse. -/
theorem witness_edge_order_reversed (a b c : State → Result) : [c, b, a].Perm [a, b, c] := by
  simpa using List.reverse_perm [a, b, c]

theorem witness_edge_transfers :
    (block [reqA] [rspB] [.edge (pinsOf true 0#32 true) 1]).wasReset = true ∧
    (block [reqA] [rspB] [.edge (pinsOf true 0#32 true) 1]).schedule = [.edge (pinsOf true 0#32 true) 1] ∧
    (pinsOf true 0#32 true).rst = false := by decide
theorem witness_convert_and_collect :
    (block [reqA] [rspB] [.convert]).pend = [reqA] ∧ (block [reqA] [rspB] [.collect]).done = [rspB] ∧
    (block [reqA] [rspB] [.convert]).wasReset = true := by decide
theorem witness_response_stable :
    (ports (deep 2) false (block [reqB] [rspA] [.edge (pinsOf true 0#32 false) 1])).rspValid = true ∧
    (block [reqB] [rspA] [.edge (pinsOf true 0#32 false) 1]).schedule = [.edge (pinsOf true 0#32 false) 1] ∧
    (pinsOf true 0#32 false).rst = false ∧ (pinsOf true 0#32 false).rspReady = false := by decide
theorem witness_ports_idle : (ports (deep 2) false (block [reqB] [] [])).rspValid = false := by decide
theorem witness_sampling_not_ready :
    (ports (deep 1) false (block [reqA] [] [])).reqReady = false ∧
    (pinsOf true 0x1#32 true).rspReady = (pinsOf true 0x2#32 true).rspReady := by decide
theorem witness_sampling_ready :
    (block [] [] []).wasReset = true ∧ (pinsOf true 0x1#32 true).reqValid = true ∧
    (ports (deep 1) false (block [] [] [])).reqReady = true := by decide
theorem witness_legal_params : (deep 1).legal = true := by decide
theorem witness_reset_edge :
    pinsReset.rst = true ∧ (block [reqB] [rspA] [.edge pinsReset 1]).schedule = [.edge pinsReset 1] := by decide
theorem witness_before_first_reset :
    ({ State.reset with wasReset := false } : State).wasReset = false ∧
    ({ State.reset with wasReset := false } : State).schedule = [] := by decide

/-- A reset edge and a step after it. -/
theorem witness_work_lost :
    ∃ t u, stepWith (deep 2) (block [reqB] [rspA] [.edge pinsReset 1, .issue reqA]) = .next t ∧
      runWith (deep 2) 1 t = .next u ∧ [Move.issue reqA].all noReset = true := ⟨_, _, rfl, rfl, rfl⟩

/-- A state of the open parameters, within the depth, in order and with legal responses, and its step. -/
theorem witness_invariants :
    withinDepth Config.params (blockFrom [reqA] [reqA] [] [.convert]) ∧
    inOrder (blockFrom [reqA] [reqA] [] [.convert]) ∧ doneLegal (blockFrom [reqA] [reqA] [] [.convert]) ∧
    ∃ t, step (blockFrom [reqA] [reqA] [] [.convert]) = .next t := by
  refine ⟨Nat.le_add_left 1 Config.depthExtra, rfl, ?_, _, rfl⟩
  intro r hr
  cases hr

/-- A state in order from which the host has collected a response. -/
theorem witness_in_order_collected :
    inOrder { blockFrom [reqA] [] [] [] with collected := [rspA] } ∧
    0 < ({ blockFrom [reqA] [] [] [] with collected := [rspA] } : State).collected.length := by
  exact ⟨by unfold inOrder; decide, by decide⟩

theorem witness_independent :
    (block [reqA, reqB] [] [.convert, .convert, .collect]).wasReset = true ∧
    (block [reqA, reqB] [] [.convert, .convert, .collect]).schedule =
      List.replicate (block [reqA, reqB] [] [.convert, .convert, .collect]).pend.length .convert ++ [.collect] := by
  decide

/-- The same request alone behind a response, and behind an overflow and before another request. -/
theorem witness_independent_two_blocks :
    (block [reqA] [rspB] [.convert]).pend = [] ++ reqA :: [] ∧
    (block [reqA] [rspB] [.convert]).schedule =
      List.replicate (block [reqA] [rspB] [.convert]).pend.length .convert ∧
    (block [reqB, reqA, reqB] [] [.convert, .convert, .convert]).pend = [reqB] ++ reqA :: [reqB] ∧
    (block [reqB, reqA, reqB] [] [.convert, .convert, .convert]).schedule =
      List.replicate (block [reqB, reqA, reqB] [] [.convert, .convert, .convert]).pend.length .convert := by
  decide

theorem witness_queues_survive :
    (blockFrom [reqB] [reqA] [rspB] [.convert]).pend = (block [reqA] [rspB] [.convert]).pend ∧
    (blockFrom [reqB] [reqA] [rspB] [.convert]).issued ≠ (block [reqA] [rspB] [.convert]).issued := by decide

theorem witness_pending_becomes_done :
    (block [reqA, reqB] [] []).wasReset = true ∧ (block [reqA, reqB] [] []).schedule = [] := by decide

theorem witness_idle :
    (block [] [rspA] []).wasReset = true ∧ (block [] [rspA] []).schedule = [] ∧ (block [] [rspA] []).pend = [] := by
  decide

/-- A full block whose host offers a request and never collects. -/
theorem witness_full :
    full (deep 1) (block [reqA] [] [.edge (pinsOf true 0#32 false) 1]) ∧
    (block [reqA] [] [.edge (pinsOf true 0#32 false) 1]).schedule.all neverCollects = true ∧
    ∃ t, runWith (deep 1) 1 (block [reqA] [] [.edge (pinsOf true 0#32 false) 1]) = .next t :=
  ⟨rfl, rfl, _, rfl⟩

/-- A schedule without reset after which all that was issued has been collected (P4's first three steps). -/
theorem witness_program_end :
    ∃ t, runWith (deep 1) 3 (State.scheduled [.issue reqA, .convert, .collect]) = .next t ∧ t.issued = [reqA] ∧
      t.collected.length = [reqA].length ∧ [Move.issue reqA, .convert, .collect].all noReset = true :=
  ⟨_, rfl, rfl, rfl, rfl⟩

theorem witness_streaming :
    (⟨4, 2, 1⟩ : Params).legal = true ∧ (⟨4, 2, 1⟩ : Params).latency + 2 ≤ (⟨4, 2, 1⟩ : Params).depth ∧
    (deep 3).latency = 1 ∧ 3 ≤ (deep 3).depth := by decide

/-- Spellings of one, eight and nine digits. -/
theorem witness_spellings :
    1 ≤ [((10 : Fin 16), true)].length ∧ (List.replicate 8 ((15 : Fin 16), false)).length ≤ 8 ∧
    8 < (List.replicate 9 ((1 : Fin 16), true)).length ∧ oneToken ∈ [oneToken, directToken, manyToken] := by decide

/-- A timed state with one stamp for its pending request, ripe at the coming edge. -/
theorem witness_timed :
    (⟨block [reqA] [] [], [0], 1⟩ : Timed).stamps.length = (block [reqA] [] []).pend.length ∧
    (∀ a ∈ (⟨block [reqA] [] [], [0], 1⟩ : Timed).stamps, a < 1) ∧
    (pinsOf true 0#32 false).rst = false ∧ accepted (deep 2) (pinsOf true 0#32 false) (block [reqA] [] []) = true ∧
    ∃ t, timedEdge (deep 2) (pinsOf true 0#32 false) 1 ⟨block [reqA] [] [], [0], 1⟩ = .next t := by
  refine ⟨rfl, by decide, rfl, rfl, _, rfl⟩

theorem witness_system :
    (∃ bs, systemStep (deep 2) 0 [block [reqA] [] [.convert], State.reset] = .next bs) ∧
    [block [reqA] [] [.convert], State.reset][0]? = some (block [reqA] [] [.convert]) ∧
    ∃ t, stepWith (deep 2) (block [reqA] [] [.convert]) = .next t := ⟨⟨_, rfl⟩, rfl, _, rfl⟩
/-- Blocks whose own steps fault and are refused. -/
theorem witness_system_stops :
    stepWith (deep 2) (block [] [] [.convert]) = .fault .convertNotEnabled ∧
    stepWith (deep 2) { State.reset with wasReset := false } = .refused .beforeFirstReset := ⟨rfl, rfl⟩

end Sys2Proof.Tests
end

section
/-! PROOFS. The state of the block: the reset values (R29) and the capacity bound (R17). -/

namespace Sys2Proof.Machine

/-- A legal block has room for at least one request (R8). -/
theorem depth_pos_of_legal {p : Params} (h : p.legal = true) : 0 < p.depth := by
  simp only [Params.legal, Bool.and_eq_true, decide_eq_true_eq] at h
  obtain ⟨⟨hdepth, _⟩, _⟩ := h
  exact hdepth

@[simp] theorem ports_reqReady (p : Params) (rst : Bool) (s : State) :
    (ports p rst s).reqReady = (!rst && decide (s.occupancy < p.depth)) := rfl

@[simp] theorem ports_rspValid (p : Params) (rst : Bool) (s : State) :
    (ports p rst s).rspValid = (!rst && !s.done.isEmpty) := by
  cases rst with
  | true => rfl
  | false => cases hd : s.done <;> simp [ports, hd]

/-- Converting moves entries from one queue to the other and collecting removes one, so only an accepted request can
raise the occupancy. -/
theorem occupancy_transfer_le (s : State) (take : Bool) (k : Nat) (acc : Option Request) :
    (s.transfer take k acc).occupancy ≤ s.occupancy + acc.toList.length := by
  have kept : (if take then s.done.tail else s.done).length ≤ s.done.length := by
    cases take <;> simp
  simp only [State.occupancy, State.transfer_pend, State.transfer_done, List.length_append, List.length_drop,
    List.length_map, List.length_take]
  omega

/-- The capacity bound is kept whatever the parameters: a request is accepted only below `DEPTH`, where there is room
for it. -/
theorem stepWith_keeps_withinDepth (p : Params) (s t : State) (hs : withinDepth p s) (h : stepWith p s = .next t) :
    withinDepth p t := by
  obtain ⟨_, _, _, _, _, rfl⟩ | ⟨_, take, k, acc, _, room, rfl⟩ := stepWith_cases h
  · exact Nat.zero_le p.depth
  · have grown : (s.advance.transfer take k acc).occupancy ≤ s.occupancy + acc.toList.length :=
      occupancy_transfer_le s.advance take k acc
    cases acc with
    | none => exact grown.trans hs
    | some r => exact grown.trans (room (Option.some_ne_none r))

/-- Settles O43: the step is `stepWith` at the build's parameters, and `stepWith` keeps the bound at any. -/
theorem occupancyNeverExceedsDepth : Obligations.OccupancyNeverExceedsDepth := by
  unfold Obligations.OccupancyNeverExceedsDepth
  exact stepWith_keeps_withinDepth Config.params

/-- Settles O38: the empty block is ready exactly because a legal `DEPTH` is at least 1. -/
theorem resetValues : Obligations.ResetValues := by
  unfold Obligations.ResetValues
  refine ⟨rfl, rfl, rfl, fun p hp => ⟨by simp, ?_, by simp⟩⟩
  simpa [State.occupancy] using depth_pos_of_legal hp

end Sys2Proof.Machine
end

section
/-! PROOFS. The queues and the order of responses: what an operation leaves behind (R38), the order of the host's receipts
(R30, R41) and the independence of requests (R42). -/

namespace Sys2Proof.Machine

/-! ## The order of responses -/

theorem inOrder_resetEdge (s : State) : inOrder s.resetEdge := rfl

/-- Taking moves the head of `done` to the end of the collected responses and converting moves the responses of the
oldest requests from `pend` to `done`, so the whole sequence only grows, by the response of an accepted request. -/
theorem response_sequence_transfer (s : State) (take : Bool) (k : Nat) (acc : Option Request) :
    (s.transfer take k acc).collected ++ (s.transfer take k acc).done ++ (s.transfer take k acc).pend.map execRequest =
      s.collected ++ s.done ++ s.pend.map execRequest ++ acc.toList.map execRequest := by
  have taking : (if take then s.done.head?.toList else []) ++ (if take then s.done.tail else s.done) = s.done := by
    cases take <;> cases s.done <;> rfl
  have converting :
      (s.pend.take k).map execRequest ++ (s.pend.drop k).map execRequest = s.pend.map execRequest := by
    rw [← List.map_append, List.take_append_drop]
  calc
    _ = s.collected ++
          ((if take then s.done.head?.toList else []) ++ (if take then s.done.tail else s.done)) ++
          ((s.pend.take k).map execRequest ++ (s.pend.drop k).map execRequest) ++ acc.toList.map execRequest := by
        simp only [State.transfer_collected, State.transfer_done, State.transfer_pend, List.map_append,
          List.append_assoc]
    _ = _ := by rw [taking, converting]

theorem inOrder_transfer {s : State} (hs : inOrder s) (take : Bool) (k : Nat) (acc : Option Request) :
    inOrder (s.transfer take k acc) := by
  unfold inOrder at hs ⊢
  rw [response_sequence_transfer, hs, State.transfer_issued, List.map_append]

/-- The order of responses is kept whatever the parameters: a step is a reset edge or a transfer. -/
theorem stepWith_keeps_inOrder (p : Params) (s t : State) (hs : inOrder s) (h : stepWith p s = .next t) :
    inOrder t := by
  obtain ⟨_, _, _, _, _, rfl⟩ | ⟨_, take, k, acc, _, _, rfl⟩ := stepWith_cases h
  · exact inOrder_resetEdge s.advance
  · have advanced : inOrder s.advance := hs
    exact inOrder_transfer advanced take k acc

/-- Settles O44: a step is a reset edge or a transfer, each of which keeps the order, and the k-th collected response is
the k-th of the whole sequence, at whose head the collected ones stand. -/
theorem responsesInRequestOrder : Obligations.ResponsesInRequestOrder := by
  unfold Obligations.ResponsesInRequestOrder
  refine ⟨stepWith_keeps_inOrder Config.params, fun s k hs hk => ?_⟩
  unfold inOrder at hs
  rw [← List.getElem?_map, ← hs, List.append_assoc, List.getElem?_append_left hk]

/-! ## Operations and requests -/

/-- Settles O18: the response is `instrResponse`, and appending it is the whole of an operation. -/
theorem operationsArePure : Obligations.OperationsArePure := by
  unfold Obligations.OperationsArePure
  exact fun i => ⟨instrResponse i, fun s =>
    ⟨s.respond (instrResponse i), exec_eq i s, rfl, rfl, rfl, rfl, rfl, rfl, rfl, rfl⟩⟩

/-- The decoder reads a packed request's own fields: the mode selects the operation and the word is its operand (R51). -/
theorem decode_pack (r : Request) :
    decode r.pack = if r.mode then .decodeDirect r.word else .decodeOne r.word := by
  have mode : r.pack.getLsbD 32 = r.mode :=
    BitVec.getLsbD_append.trans (by simp)
  have word : r.pack.extractLsb' 0 32 = r.word := BitVec.extractLsb'_append_eq_right
  rw [decode, mode, word]

theorem execRequest_eq (r : Request) :
    execRequest r = if r.mode then decodeDirectResponse r.word else decodeOneResponse r.word := by
  rw [execRequest, decode_pack]
  cases r.mode <;> rfl

/-- A scheduled Convert with a request pending: its response goes to `done`, and the move is used up. -/
theorem stepWith_convert {p : Params} {s : State} {r : Request} {rest : List Request} {ms : List Move}
    (hw : s.wasReset = true) (hp : s.pend = r :: rest) (hs : s.schedule = .convert :: ms) :
    stepWith p s =
      .next { s with
        pend := rest, done := s.done ++ [execRequest r], schedule := ms, freeTick := s.freeTick + 1 } := by
  have converts : convert s.advance = .next (s.advance.dropPend.respond (execRequest r)) :=
    convert_cons (rest := rest) (by simpa using hp)
  simp only [stepWith, hs, takeMove, afterReset, State.advance_wasReset, hw, if_true, converts]
  refine congrArg Host.Outcome.next ?_
  ext1 <;> simp [hp, hs, hw]

/-- As many Convert moves as requests are pending empty `pend`, each request's response going to `done` in order. -/
theorem runWith_converts_all {p : Params} {s : State} {ms : List Move} (hw : s.wasReset = true)
    (hs : s.schedule = List.replicate s.pend.length .convert ++ ms) :
    runWith p s.pend.length s =
      .next { s with
        pend := [], done := s.done ++ s.pend.map execRequest, schedule := ms
        freeTick := s.freeTick + s.pend.length } := by
  induction hp : s.pend generalizing s with
  | nil =>
    refine congrArg Host.Outcome.next ?_
    ext1 <;> simp_all
  | cons r rest ih =>
    rw [hp, List.length_cons, List.replicate_succ, List.cons_append] at hs
    rw [List.length_cons, runWith, stepWith_convert hw hp hs, andThen_next]
    refine (ih ?wasReset ?schedule ?pend).trans (congrArg Host.Outcome.next ?states)
    case wasReset => exact hw
    case schedule => rfl
    case pend => rfl
    case states => ext1 <;> simp [Nat.add_comm, Nat.add_left_comm]

/-- Wherever a request stands in `pend`, converting everything puts its own response at its place behind `done`. -/
theorem runWith_converts_at {p : Params} {s : State} {before after : List Request} {r : Request}
    (hw : s.wasReset = true) (hp : s.pend = before ++ r :: after)
    (hs : s.schedule = List.replicate s.pend.length .convert) :
    ∃ t, runWith p s.pend.length s = .next t ∧
      t.done[s.done.length + before.length]? = some (execRequest r) := by
  refine ⟨_, runWith_converts_all (ms := []) hw (by rw [hs, List.append_nil]), ?_⟩
  simp [hp]

/-- Settles O47: by induction on `pend`, each request's response being that of its own mode and word. -/
theorem requestsAreIndependent : Obligations.RequestsAreIndependent := by
  unfold Obligations.RequestsAreIndependent
  constructor
  · intro p s ms hw hs
    rw [runWith_converts_all hw hs, ← funext execRequest_eq]
  · intro p q s u before after before' after' r hws hps hss hwu hpu hsu
    obtain ⟨t, runs, response⟩ := runWith_converts_at (p := p) hws hps hss
    obtain ⟨v, runs', response'⟩ := runWith_converts_at (p := q) hwu hpu hsu
    exact ⟨t, v, runs, runs', response, response'.trans response.symm⟩

end Sys2Proof.Machine
end

section
/-! PROOFS. The requests and their decoder (R50, R56, R57): the decoder and the encoder invert each other, and bit 32
alone selects the operation. -/

namespace Sys2Proof

open Sys2Proof.Machine

theorem pack_unpack (v : BitVec 33) : (Request.unpack v).pack = v := by
  have mode : BitVec.ofBool (v.getLsbD 32) = v.extractLsb' 32 1 :=
    BitVec.eq_of_getLsbD_eq fun k hk => by
      obtain rfl : k = 0 := by omega
      simp
  have split : v.extractLsb' 32 1 ++ v.extractLsb' 0 32 = v :=
    BitVec.extractLsb'_append_extractLsb' (w := 1) (len := 32)
  exact (congrArg (· ++ v.extractLsb' 0 32) mode).trans split

/-- The encoding of an operation is a packed request, which the decoder reads by its fields (R50, R51). -/
theorem decode_encode (i : Instr) : decode (encode i) = i := by
  cases i with
  | decodeOne w => exact decode_pack ⟨false, w⟩
  | decodeDirect w => exact decode_pack ⟨true, w⟩

theorem encode_decode (v : BitVec 33) : encode (decode v) = v := by
  have packed : BitVec.ofBool (v.getLsbD 32) ++ v.extractLsb' 0 32 = v := pack_unpack v
  rw [decode]
  cases mode : v.getLsbD 32 with
  | false => rwa [mode] at packed
  | true => rwa [mode] at packed

theorem decodeNumber_toNat (v : BitVec 33) : decodeNumber v.toNat = .ok (decode v) := by
  have request : isRequestNumber v.toNat = true := decide_eq_true v.isLt
  rw [decodeNumber, if_pos request, BitVec.ofNat_toNat, BitVec.setWidth_eq]

/-- Settles O2: the operation is the decoded one, and the decoder inverts the encoder. -/
theorem everyRequestIsOneOperation : Obligations.EveryRequestIsOneOperation := by
  unfold Obligations.EveryRequestIsOneOperation
  intro v
  have unique (j : Instr) (h : encode j = v) : j = decode v := by rw [← h, decode_encode]
  exact ⟨decode v, encode_decode v, unique, rfl, decodeNumber_toNat v, fun s => ⟨_, exec_eq (decode v) s⟩⟩

/-- The mask of the opcode map keeps bit 32 alone (R56). -/
theorem and_opcode_mask (v : BitVec 33) :
    v &&& 0x100000000#33 = if v.getLsbD 32 then 0x100000000#33 else 0x000000000#33 :=
  BitVec.and_twoPow v 32

/-- Settles O4: the masked request is one of the two match values as bit 32 is clear or set, and so is the operation. -/
theorem modeBitSelectsOperation : Obligations.ModeBitSelectsOperation := by
  unfold Obligations.ModeBitSelectsOperation
  refine ⟨rfl, fun v => ?_⟩
  rw [and_opcode_mask, decode]
  cases v.getLsbD 32 with
  | false => simp
  | true => simp

end Sys2Proof
end

section
/-! PROOFS. The fields of the IBM word by the source's shifts and masks (R54). -/

namespace Sys2Proof.Machine

/-- The mask of a field in place: `len` ones from bit `lo` upward. -/
def fieldMask (lo len : Nat) : Word := (BitVec.allOnes len).setWidth 32 <<< lo

theorem getLsbD_fieldMask (lo len k : Nat) :
    (fieldMask lo len).getLsbD k = decide (lo ≤ k ∧ k < lo + len ∧ k < 32) := by
  simp only [fieldMask, BitVec.getLsbD_shiftLeft, BitVec.getLsbD_setWidth, BitVec.getLsbD_allOnes]
  grind

/-- Masking a word in place keeps the field at its position and clears every other bit. -/
theorem and_fieldMask (w : Word) (lo len : Nat) :
    w &&& fieldMask lo len = (w.extractLsb' lo len).setWidth 32 <<< lo := by
  refine BitVec.eq_of_getLsbD_eq fun k hk => ?_
  simp only [BitVec.getLsbD_and, getLsbD_fieldMask, BitVec.getLsbD_shiftLeft, BitVec.getLsbD_setWidth,
    BitVec.getLsbD_extractLsb']
  grind

/-- Shifting a word down and masking it yields the field out of place. -/
theorem toNat_shift_and_mask (w mask : Word) (lo len : Nat) (h : mask.toNat = 2 ^ len - 1) :
    ((w >>> lo) &&& mask).toNat = (w.extractLsb' lo len).toNat := by
  rw [BitVec.toNat_and, h, Nat.and_two_pow_sub_one_eq_mod, BitVec.toNat_ushiftRight, BitVec.extractLsb'_toNat]

/-- A field is zero exactly when the word is zero under the field's mask. -/
theorem and_fieldMask_eq_zero_iff (w : Word) (lo len : Nat) (h : lo + len ≤ 32) :
    w &&& fieldMask lo len = 0#32 ↔ w.extractLsb' lo len = 0#len := by
  rw [and_fieldMask]
  constructor
  · intro hz
    refine BitVec.eq_of_getLsbD_eq fun k hk => ?_
    have := congrArg (BitVec.getLsbD · (lo + k)) hz
    simpa [hk, show lo + k < 32 by omega] using this
  · intro hz
    simp [hz]

/-- Zeros appended below a field move it up to its position. -/
theorem setWidth_append_zeros {n : Nat} (x : BitVec n) (lo width : Nat) :
    (x ++ 0#lo).setWidth width = x.setWidth width <<< lo := by
  rw [BitVec.setWidth_append_eq_shiftLeft_setWidth_or]
  simp

theorem setWidth_zeros_append {n : Nat} (x : BitVec n) (hi width : Nat) :
    (0#hi ++ x).setWidth width = x.setWidth width := by
  rw [BitVec.setWidth_append_eq_shiftLeft_setWidth_or]
  simp

theorem and_sign_mask (w : Word) : w &&& 0x80000000#32 = signOf w ++ 0#31 :=
  calc
    _ = w &&& fieldMask 31 1 := congrArg (w &&& ·) (by decide)
    _ = (signOf w).setWidth 32 <<< 31 := and_fieldMask w 31 1
    _ = (signOf w ++ 0#31).setWidth 32 := (setWidth_append_zeros (signOf w) 31 32).symm
    _ = _ := BitVec.setWidth_eq _

theorem and_exponent_mask (w : Word) : w &&& 0x7F000000#32 = 0#1 ++ exponentOf w ++ 0#24 :=
  calc
    _ = w &&& fieldMask 24 7 := congrArg (w &&& ·) (by decide)
    _ = (exponentOf w).setWidth 32 <<< 24 := and_fieldMask w 24 7
    _ = (0#1 ++ exponentOf w ++ 0#24).setWidth 32 := by rw [setWidth_append_zeros, setWidth_zeros_append]
    _ = _ := BitVec.setWidth_eq _

theorem and_nibble_mask_eq_zero_iff (w : Word) : w &&& 0x00F00000#32 = 0#32 ↔ topNibble w = 0#4 := by
  have nibble_mask : (0x00F00000#32 : Word) = fieldMask 20 4 := by decide
  rw [nibble_mask]
  exact and_fieldMask_eq_zero_iff w 20 4 (by decide)

/-- Settles O7: each mask of the source is the mask of its field, out of place for the first three and in place for the
rest. -/
theorem wordFieldExtraction : Obligations.WordFieldExtraction := by
  unfold Obligations.WordFieldExtraction
  intro w
  refine ⟨?sign, ?exponent, ?mantissa, and_sign_mask w, and_exponent_mask w, ?nibble, and_nibble_mask_eq_zero_iff w⟩
  case sign => exact (toNat_shift_and_mask w _ 31 1 rfl).symm
  case exponent => exact (toNat_shift_and_mask w _ 24 7 rfl).symm
  case mantissa => exact (toNat_shift_and_mask w _ 0 24 rfl).symm
  case nibble => exact (BitVec.extractLsb'_extractLsb'_of_le (by decide)).symm

end Sys2Proof.Machine
end

section
/-! PROOFS. What the assembler reads of printed text (R59 to R62): each printed part is read back as what was printed,
and lines are read one after the other. -/

namespace Sys2Proof.Machine

/-! ## Words -/

/-- The values of the digits that `hexDigits` prints. -/
def hexDigitValues : Nat → Nat → List Nat
  | 0, _ => []
  | k + 1, v => hexDigitValues k (v / 16) ++ [v % 16]

@[simp] theorem length_hexDigitValues (k v : Nat) : (hexDigitValues k v).length = k := by
  induction k generalizing v with
  | zero => rfl
  | succ k ih => simp [hexDigitValues, ih]

/-- Reading a digit more shifts the number by one place. -/
theorem hexNumber_concat (ds : List Nat) (d : Nat) : hexNumber (ds ++ [d]) = 16 * hexNumber ds + d := by
  simp [hexNumber]

theorem hexNumber_hexDigitValues (k v : Nat) : hexNumber (hexDigitValues k v) = v % 16 ^ k := by
  induction k generalizing v with
  | zero => simp [hexDigitValues, hexNumber, Nat.mod_one]
  | succ k ih => rw [hexDigitValues, hexNumber_concat, ih, Nat.pow_succ', Nat.mod_mul, Nat.add_comm]

theorem takeHex_hexDigit_cons (d : Nat) (rest : List Char) :
    takeHex (hexDigit d :: rest) = (d % 16 :: (takeHex rest).1, (takeHex rest).2) := by
  simp [takeHex, hexValue_hexDigit]

/-- Printed digits are read back before whatever digits follow. -/
theorem takeHex_hexDigits (k v : Nat) (rest : List Char) :
    takeHex (hexDigits k v ++ rest) = (hexDigitValues k v ++ (takeHex rest).1, (takeHex rest).2) := by
  induction k generalizing v rest with
  | zero => rfl
  | succ k ih =>
    rw [hexDigits, List.append_assoc, ih, List.singleton_append, takeHex_hexDigit_cons, hexDigitValues,
      List.append_assoc, List.singleton_append]

/-- A printed word is read back, up to where its digits end. -/
theorem parseWord_printHex (w : Word) {rest : List Char} (h : takeHex rest = ([], rest)) :
    parseWord (' ' :: (printHex 8 w.toNat ++ rest)) = .ok (w, rest) := by
  have opening : afterToken ['0', 'x'] (skipBlanks (' ' :: (printHex 8 w.toNat ++ rest))) =
      some (hexDigits 8 w.toNat ++ rest) := by
    simp [skipBlanks, isBlank, printHex, afterToken]
  have digits : takeHex (hexDigits 8 w.toNat ++ rest) = (hexDigitValues 8 w.toNat, rest) := by
    rw [takeHex_hexDigits, h, List.append_nil]
  have value : BitVec.ofNat 32 (hexNumber (hexDigitValues 8 w.toNat)) = w := by
    have whole : w.toNat % 16 ^ 8 = w.toNat := Nat.mod_eq_of_lt w.isLt
    rw [hexNumber_hexDigitValues, whole, BitVec.ofNat_toNat, BitVec.setWidth_eq]
  simp only [parseWord, opening, digits, value, length_hexDigitValues]
  rfl

/-! ## Lists of words -/

/-- The printed words after the first, each behind its comma. -/
def printMore (ws : List Word) : List Char := ws.flatMap fun w => ',' :: ' ' :: printHex 8 w.toNat

theorem printWords_cons (w : Word) (ws : List Word) :
    printWords (w :: ws) = ' ' :: (printHex 8 w.toNat ++ printMore ws) := by
  induction ws generalizing w with
  | nil => simp [printWords, printMore]
  | cons w' ws ih => simp [printWords, ih, printMore]

theorem takeHex_printMore (ws : List Word) : takeHex (printMore ws) = ([], printMore ws) := by
  have comma (cs : List Char) : takeHex (',' :: cs) = ([], ',' :: cs) := rfl
  cases ws with
  | nil => rfl
  | cons w ws => exact comma _

theorem length_le_length_printMore (ws : List Word) : ws.length ≤ (printMore ws).length := by
  induction ws with
  | nil => exact Nat.zero_le _
  | cons w ws ih =>
    simp only [printMore, List.flatMap_cons, List.length_append, List.length_cons] at ih ⊢
    omega

theorem parseMore_printMore (ws : List Word) (bound : Nat) (h : ws.length ≤ bound) :
    parseMore bound (printMore ws) = .ok (ws, []) := by
  induction ws generalizing bound with
  | nil => cases bound <;> rfl
  | cons w ws ih =>
    obtain ⟨k, rfl⟩ : ∃ k, bound = k + 1 := Nat.exists_eq_add_one.mpr (Nat.zero_lt_of_lt h)
    have comma : afterToken [','] (skipBlanks (printMore (w :: ws))) =
        some (' ' :: (printHex 8 w.toNat ++ printMore ws)) := rfl
    simp [parseMore, comma, parseWord_printHex w (takeHex_printMore ws), ih k (Nat.le_of_succ_le_succ h)]

theorem parseWords_printWords (ws : List Word) : parseWords (printWords ws) = .ok (ws, []) := by
  cases ws with
  | nil => rfl
  | cons w ws =>
    have nonempty : (skipBlanks (' ' :: (printHex 8 w.toNat ++ printMore ws))).isEmpty = false := rfl
    rw [printWords_cons, parseWords, nonempty, parseWord_printHex w (takeHex_printMore ws)]
    simp [parseMore_printMore ws _ (length_le_length_printMore ws)]

/-! ## Operations -/

theorem parseOperation_oneToken (rest : List Char) :
    parseOperation (oneToken ++ rest) = finish (fun w => [⟨false, w⟩]) (parseWord rest) := by
  rw [parseOperation, afterToken_append]

theorem parseOperation_manyToken (rest : List Char) :
    parseOperation (manyToken ++ rest) = finish expandMany (parseWords rest) := by
  have not_one : afterToken oneToken (manyToken ++ rest) = none := rfl
  have not_direct : afterToken directToken (manyToken ++ rest) = none := rfl
  rw [parseOperation, not_one, not_direct, afterToken_append]

theorem parseOperation_printLine_decodeOne (w : Word) :
    parseOperation (printLine (.decodeOne w)) = .ok [⟨false, w⟩] := by
  have word : parseWord (' ' :: printHex 8 w.toNat) = .ok (w, []) := by
    simpa using parseWord_printHex w (rest := []) rfl
  rw [printLine, parseOperation_oneToken, word]
  rfl

theorem parseOperation_printMany (ws : List Word) : parseOperation (printMany ws) = .ok (expandMany ws) := by
  rw [printMany, parseOperation_manyToken, parseWords_printWords]
  rfl

/-! ## Lines -/

/-- A character that neither ends a line nor opens a comment (R59). -/
def staysInOperation (c : Char) : Bool := c != '\n' && c != ';'

theorem staysInOperation_iff {c : Char} : staysInOperation c = true ↔ c ≠ '\n' ∧ c ≠ ';' := by
  simp [staysInOperation]

theorem hexDigits_stay (k v : Nat) : (hexDigits k v).all staysInOperation = true := by
  have digits : ∀ d : Fin 16, staysInOperation (hexDigit d.val) = true := by decide
  induction k generalizing v with
  | zero => rfl
  | succ k ih =>
    have last : hexDigit v = hexDigit (v % 16) := by simp [hexDigit]
    simp [hexDigits, ih, last, digits ⟨v % 16, Nat.mod_lt v (by decide)⟩]

theorem printHex_stay (k v : Nat) : (printHex k v).all staysInOperation = true := by
  have zero_x : staysInOperation '0' = true ∧ staysInOperation 'x' = true := by decide
  simp [printHex, zero_x, hexDigits_stay]

theorem printMore_stay (ws : List Word) : (printMore ws).all staysInOperation = true := by
  have comma : staysInOperation ',' = true := by decide
  have blank : staysInOperation ' ' = true := by decide
  induction ws with
  | nil => rfl
  | cons w ws ih =>
    have parts : printMore (w :: ws) = ',' :: ' ' :: (printHex 8 w.toNat ++ printMore ws) := rfl
    simp [parts, comma, blank, printHex_stay, ih]

/-- A line that is an operation alone assembles to the operation's requests. -/
theorem assembleLine_of_stay {c : Char} {cs : List Char} (h : (c :: cs).all staysInOperation = true)
    (hc : isBlank c = false) : assembleLine (c :: cs) = parseOperation (c :: cs) := by
  have no_comment : (c :: cs).takeWhile (· != ';') = c :: cs :=
    List.takeWhile_eq_self_iff.mpr fun d hd => by
      obtain ⟨_, hd⟩ := staysInOperation_iff.mp (List.all_eq_true.mp h d hd)
      simpa using hd
  have no_blank : skipBlanks (c :: cs) = c :: cs := List.dropWhile_cons_of_neg (by simp [hc])
  simp only [assembleLine, no_comment, no_blank]
  rfl

/-- A line is read up to its newline, and the lines after it are read from the start. -/
theorem assembleFrom_line {line : List Char} (h : line.all staysInOperation = true) (before rest : List Char)
    {rs rs' : List Request} (hl : assembleLine (before ++ line) = .ok rs) (hr : assembleFrom [] rest = .ok rs') :
    assembleFrom before (line ++ '\n' :: rest) = .ok (rs ++ rs') := by
  induction line generalizing before with
  | nil =>
    rw [List.append_nil] at hl
    simp [assembleFrom, hl, hr]
  | cons c cs ih =>
    obtain ⟨hc, hcs⟩ : staysInOperation c = true ∧ cs.all staysInOperation = true := by simpa using h
    obtain ⟨no_newline, _⟩ := staysInOperation_iff.mp hc
    have next := ih hcs (before ++ [c]) (by simpa using hl)
    simpa [assembleFrom, no_newline] using next

/-- A printed program assembles to the requests of its lines, in order (R63). -/
theorem assemble_printProgram {α : Type} (text : α → List Char) (requests : α → List Request) (as : List α)
    (stay : ∀ a, (text a).all staysInOperation = true) (each : ∀ a, assembleLine (text a) = .ok (requests a)) :
    assemble (printProgram (as.map text)) = .ok (as.flatMap requests) := by
  induction as with
  | nil => rfl
  | cons a as ih =>
    have lines : printProgram ((a :: as).map text) = text a ++ '\n' :: printProgram (as.map text) := by
      simp [printProgram]
    rw [assemble, lines]
    exact assembleFrom_line (stay a) [] _ (each a) ih

theorem printLine_decodeOne_stay (w : Word) : (printLine (.decodeOne w)).all staysInOperation = true := by
  have opening : (oneToken ++ [' ']).all staysInOperation = true := by decide
  simpa [printLine, printHex_stay] using opening

theorem assembleLine_printLine_decodeOne (w : Word) : assembleLine (printLine (.decodeOne w)) = .ok [⟨false, w⟩] :=
  (assembleLine_of_stay (printLine_decodeOne_stay w) rfl).trans (parseOperation_printLine_decodeOne w)

theorem printMany_stay (ws : List Word) : (printMany ws).all staysInOperation = true := by
  have opening : manyToken.all staysInOperation = true := by decide
  have blank : staysInOperation ' ' = true := by decide
  cases ws with
  | nil => rfl
  | cons w ws => simp [printMany, printWords_cons, opening, blank, printHex_stay, printMore_stay]

theorem assembleLine_printMany (ws : List Word) : assembleLine (printMany ws) = .ok (expandMany ws) :=
  (assembleLine_of_stay (printMany_stay ws) rfl).trans (parseOperation_printMany ws)

/-- Settles O59: each of the two texts assembles line by line, the first in one line and the second in one for each
word. -/
theorem manyExpandsToOnes : Obligations.ManyExpandsToOnes := by
  unfold Obligations.ManyExpandsToOnes
  intro ws
  constructor
  · simpa using assemble_printProgram printMany expandMany [ws] printMany_stay assembleLine_printMany
  · have ones := assemble_printProgram (fun w => printLine (.decodeOne w)) (fun w => [⟨false, w⟩]) ws
      printLine_decodeOne_stay assembleLine_printLine_decodeOne
    rwa [← List.map_eq_flatMap] at ones

end Sys2Proof.Machine
end

section
/-! PROOFS. The mantissa normalizer: the leading 1 of a mantissa (R70), the normalized significand (R71) and the source's
shift loop (R82). -/

namespace Sys2Proof.Machine

/-! ## The leading 1 -/

theorem lzc24_brackets_mantissa {M : BitVec 24} (h : M ≠ 0#24) :
    lzc24 M < 24 ∧ 2 ^ (23 - lzc24 M) ≤ M.toNat ∧ M.toNat < 2 ^ (24 - lzc24 M) :=
  leadingZeros_bounds M 24 M.isLt (mantissa_toNat_ne_zero h)

theorem getLsbD_leading_bit {M : BitVec 24} (h : M ≠ 0#24) : M.getLsbD (23 - lzc24 M) = true := by
  obtain ⟨hlt, lower, upper⟩ := lzc24_brackets_mantissa h
  have width : 24 - lzc24 M = 23 - lzc24 M + 1 := by omega
  exact Nat.testBit_of_two_pow_le_and_two_pow_add_one_gt lower (width ▸ upper)

theorem getLsbD_above_leading_bit {M : BitVec 24} (h : M ≠ 0#24) {j : Nat} (hj : 23 - lzc24 M < j) :
    M.getLsbD j = false := by
  obtain ⟨_, _, upper⟩ := lzc24_brackets_mantissa h
  exact Nat.testBit_lt_two_pow (upper.trans_le (Nat.pow_le_pow_right (by decide) (by omega)))

/-- The top hexadecimal digit of a nonzero mantissa is zero exactly when its leading 1 lies below that digit. -/
theorem topNibble_eq_zero_iff {w : Word} (h : mantissaOf w ≠ 0#24) :
    topNibble w = 0#4 ↔ 4 ≤ lzc24 (mantissaOf w) := by
  have digit (k : Nat) (hk : k < 4) : (topNibble w).getLsbD k = (mantissaOf w).getLsbD (20 + k) := by
    simp [topNibble, mantissaOf, hk, show 20 + k < 24 by omega]
  constructor
  · intro zero
    by_contra few
    have leading := digit (3 - lzc24 (mantissaOf w)) (by omega)
    rw [show 20 + (3 - lzc24 (mantissaOf w)) = 23 - lzc24 (mantissaOf w) by omega, getLsbD_leading_bit h, zero]
      at leading
    simp at leading
  · intro many
    refine BitVec.eq_of_getLsbD_eq fun k hk => ?_
    rw [digit k hk, getLsbD_above_leading_bit h (by omega), BitVec.getLsbD_zero]

theorem lzc24_le_three_of_normalized {w : Word} (h : mantissaOf w ≠ 0#24) (hw : isNormalized w = true) :
    lzc24 (mantissaOf w) ≤ 3 := by
  have digit : topNibble w ≠ 0#4 := by simpa [isNormalized] using hw
  rw [Ne, topNibble_eq_zero_iff h] at digit
  omega

theorem four_le_lzc24_of_denormalized {w : Word} (hw : isDenormalized w = true) : 4 ≤ lzc24 (mantissaOf w) := by
  have ⟨h, digit⟩ : mantissaOf w ≠ 0#24 ∧ topNibble w = 0#4 := by simpa [isDenormalized] using hw
  exact (topNibble_eq_zero_iff h).mp digit

theorem getLsbD_shiftLeft_of_le {width n i : Nat} {x : BitVec width} (hi : i < width) (hn : n ≤ i) :
    (x <<< n).getLsbD i = x.getLsbD (i - n) := by
  simp only [BitVec.getLsbD_shiftLeft, hi, Nat.not_lt.mpr hn, decide_true, decide_false, Bool.not_false, Bool.true_and]

theorem getLsbD_significand_23 {M : BitVec 24} (h : M ≠ 0#24) : (significand M (lzc24 M)).getLsbD 23 = true := by
  rw [significand, getLsbD_shiftLeft_of_le (by decide) (lzc24_bounds h).1, getLsbD_leading_bit h]

/-! ## The source's working register -/

/-- The register holds the mantissa in its upper 24 bits (C2), so that these shift as the significand does. -/
theorem getLsbD_workingRegister (M : BitVec 24) (n j : Nat) :
    ((M ++ 0#8 : BitVec 32) <<< n).getLsbD (8 + j) = (significand M n).getLsbD j := by
  simp only [significand, BitVec.getLsbD_shiftLeft, BitVec.getLsbD_append]
  grind

/-- The fraction stands in bits 30..8 of the shifted register, whatever the shift count. -/
theorem workingRegister_fraction (M : BitVec 24) (n : Nat) :
    ((M ++ 0#8 : BitVec 32) <<< n).extractLsb' 8 23 = fraction M n := by
  refine BitVec.eq_of_getLsbD_eq fun k hk => ?_
  rw [fraction, BitVec.getLsbD_extractLsb', BitVec.getLsbD_extractLsb', getLsbD_workingRegister, Nat.zero_add]

/-- A loop on a register whose leading 1 is `n` places below bit 31 shifts `n` times, or as often as it may. -/
theorem shiftLoop_eq (left : Nat) {reg : BitVec 32} (k : Nat) {n : Nat} (hn : n ≤ 31)
    (leading : reg.getLsbD (31 - n) = true) (above : ∀ j, 31 - n < j → reg.getLsbD j = false) :
    shiftLoop left reg k = (reg <<< min left n, k + min left n) := by
  induction left generalizing reg k n with
  | zero => simp [shiftLoop]
  | succ left ih =>
    cases n with
    | zero => simp [shiftLoop, show reg.getLsbD 31 = true from leading]
    | succ n =>
      have clear : reg.getLsbD 31 = false := above 31 (by omega)
      have leading' : (reg <<< 1).getLsbD (31 - n) = true := by
        rwa [getLsbD_shiftLeft_of_le (by omega) (by omega), Nat.sub_sub]
      have above' (j : Nat) (hj : 31 - n < j) : (reg <<< 1).getLsbD j = false := by
        rw [BitVec.getLsbD_shiftLeft, above (j - 1) (by omega), Bool.and_false]
      rw [shiftLoop, clear, if_neg Bool.false_ne_true, ih (k + 1) (by omega) leading' above', ← BitVec.shiftLeft_add,
        Nat.add_min_add_right, Nat.add_comm 1, Nat.add_assoc, Nat.add_comm 1]

/-- The source's normalizer shifts by the leading-zero count, but at most 5 times (R82). -/
theorem sourceNormalizer_eq {M : BitVec 24} (h : M ≠ 0#24) :
    sourceNormalizer M = ((M ++ 0#8) <<< min 5 (lzc24 M), min 5 (lzc24 M)) := by
  have places : lzc24 M ≤ 23 := (lzc24_bounds h).1
  have register (j : Nat) : (M ++ 0#8 : BitVec 32).getLsbD (8 + j) = M.getLsbD j := by
    simpa only [significand, BitVec.shiftLeft_zero] using getLsbD_workingRegister M 0 j
  rw [sourceNormalizer, shiftLoop_eq 5 0 (n := lzc24 M) (by omega) ?leading ?above, Nat.zero_add]
  case leading => rw [show 31 - lzc24 M = 8 + (23 - lzc24 M) by omega, register, getLsbD_leading_bit h]
  case above =>
    intro j hj
    rw [show j = 8 + (j - 8) by omega, register, getLsbD_above_leading_bit h (by omega)]

/-! ## The statements -/

/-- Settles O8: the count brackets the mantissa between two powers of two, which fixes its leading 1. -/
theorem shiftCountFindsLeadingOne : Obligations.ShiftCountFindsLeadingOne := by
  unfold Obligations.ShiftCountFindsLeadingOne
  intro w h M n
  refine ⟨(lzc24_bounds h).1, getLsbD_leading_bit h, fun j => getLsbD_above_leading_bit h, fun normalized => ?_,
    four_le_lzc24_of_denormalized⟩
  have few : n ≤ 3 := lzc24_le_three_of_normalized h normalized
  exact ⟨few, by rw [sourceNormalizer_eq h]; exact Nat.min_eq_right (few.trans (by decide))⟩

/-- Settles O9: the shift moves the leading 1 to bit 23, so that no bit is lost and the fraction is what stands below. -/
theorem significandLosesNoBit : Obligations.SignificandLosesNoBit := by
  unfold Obligations.SignificandLosesNoBit
  intro M h n
  exact ⟨getLsbD_significand_23 h, significand_toNat h, (significand_toNat h).trans (fraction_toNat h).symm,
    workingRegister_fraction M n⟩

/-- Settles O12: the loop shifts `min 5 n` times, which is `n` for a normalized word, whose leading 1 it brings to
bit 31. -/
theorem sourceLoopAgrees : Obligations.SourceLoopAgrees := by
  unfold Obligations.SourceLoopAgrees
  intro w h M
  rw [show sourceNormalizer M = _ from sourceNormalizer_eq h]
  constructor
  · intro normalized
    have few : lzc24 M ≤ 3 := lzc24_le_three_of_normalized h normalized
    rw [Nat.min_eq_right (show lzc24 M ≤ 5 by omega)]
    exact ⟨(getLsbD_workingRegister M _ 23).trans (getLsbD_significand_23 h), rfl, few, workingRegister_fraction M _⟩
  · intro denormalized
    have many : 4 ≤ lzc24 M := four_le_lzc24_of_denormalized denormalized
    dsimp only
    omega

end Sys2Proof.Machine
end

section
/-! PROOFS. The exponent rebaser and the assembly by the source's formulas (R72, R78), the overflow flag (R79), and the
responses of the two operations (R83, R87). -/

namespace Sys2Proof.Machine

/-! ## The source's formulas -/

/-- The exponent field in place, moved down by 22 bits, is four times the exponent (R72). -/
theorem toNat_exponent_in_place (w : Word) : ((w &&& 0x7F000000#32) >>> 22).toNat = 4 * (exponentOf w).toNat := by
  rw [and_exponent_mask, BitVec.toNat_ushiftRight, BitVec.toNat_append, BitVec.toNat_append]
  simp only [BitVec.toNat_ofNat, Nat.zero_mod, Nat.shiftLeft_eq, Nat.zero_mul, Nat.zero_or, Nat.or_zero,
    Nat.shiftRight_eq_div_pow]
  omega

/-- Settles O10: four times the exponent comes from the field in place, and the constants add up to -130. -/
theorem exponentFormulaAgrees : Obligations.ExponentFormulaAgrees := by
  unfold Obligations.ExponentFormulaAgrees
  intro w n
  refine ⟨?_, rfl⟩
  rw [computedExponent, sourceExponent, toNat_exponent_in_place]
  omega

/-- Concatenation is the OR of the fields, each shifted into its place (R78). -/
theorem assemble32_eq_sourceAssembly (w : Word) (X : BitVec 8) (F : BitVec 23) :
    assemble32 (signOf w) X F = sourceAssembly w X F :=
  calc
    _ = (signOf w ++ X ++ F).setWidth 32 := (BitVec.setWidth_eq _).symm
    _ = (signOf w).setWidth 32 <<< 31 ||| X.setWidth 32 <<< 23 ||| F.setWidth 32 := by
      rw [BitVec.setWidth_append_eq_shiftLeft_setWidth_or, BitVec.setWidth_append_eq_shiftLeft_setWidth_or,
        BitVec.shiftLeft_or_distrib, ← BitVec.shiftLeft_add]
    _ = sourceAssembly w X F := by
      rw [sourceAssembly, and_sign_mask, ← setWidth_append_zeros, BitVec.setWidth_eq]

/-! ## The response of `DECODE_ONE` -/

/-- The fraction of a word with a nonzero mantissa, as `wordExponent` is its exponent. -/
abbrev wordFraction (w : Word) : BitVec 23 := fraction (mantissaOf w) (lzc24 (mantissaOf w))

theorem decodeOneResponse_eq (w : Word) :
    decodeOneResponse w = ⟨(conv32 w).2, (conv32 w).1, widen (conv32 w).1⟩ := by
  rw [decodeOneResponse]
  cases (conv32 w).2 <;> rfl

@[simp] theorem decodeOneResponse_ovf (w : Word) : (decodeOneResponse w).ovf = (conv32 w).2 := by
  rw [decodeOneResponse_eq]

@[simp] theorem decodeOneResponse_ieee32 (w : Word) : (decodeOneResponse w).ieee32 = (conv32 w).1 := by
  rw [decodeOneResponse_eq]

/-- Settles O13: the pattern of a nonzero word is the assembly of its clamped fields. -/
theorem assemblyIsSourceOr : Obligations.AssemblyIsSourceOr := by
  unfold Obligations.AssemblyIsSourceOr
  refine ⟨assemble32_eq_sourceAssembly, fun w h => ?_⟩
  rw [decodeOneResponse_ieee32, conv32_nonzero h]
  exact assemble32_eq_sourceAssembly w _ _

/-- The flag is the test of the assembled exponent field, also for a true zero, whose field is 0 (R79). -/
theorem conv32_flag (w : Word) : (conv32 w).2 = overflowFlag (conv32 w).1 := by
  by_cases h : mantissaOf w = 0#24
  · rw [conv32_zero h, overflowFlag, assemble32_exponent]
    rfl
  · rw [conv32_nonzero h, overflowFlag, assemble32_exponent]

theorem clamp_of_neg {e : Int} (he : e < 0) (f : BitVec 23) : clamp e f = (0x00#8, 0#23) := if_pos he

theorem clamp_of_overflow {e : Int} (he : 255 ≤ e) (f : BitVec 23) : clamp e f = (0xFF#8, 0#23) :=
  (if_neg (by omega)).trans (if_pos he)

/-- Only an overflow is clamped to an exponent field of all ones: in range the field is the exponent, at most 254. -/
theorem clamp_exponent_all_ones_iff (e : Int) (f : BitVec 23) : (clamp e f).1 = 0xFF#8 ↔ 255 ≤ e := by
  rw [← BitVec.toNat_inj]
  obtain ⟨low, clamped⟩ | ⟨high, clamped⟩ | ⟨_, high, clamped, field⟩ := clamp_cases e f
  · rw [clamped]
    change 0 = 255 ↔ 255 ≤ e
    omega
  · rw [clamped]
    exact iff_of_true rfl high
  · rw [clamped]
    change (BitVec.ofInt 8 e).toNat = 255 ↔ 255 ≤ e
    omega

theorem conv32_overflow_iff (w : Word) : (conv32 w).2 = true ↔ mantissaOf w ≠ 0#24 ∧ 255 ≤ wordExponent w := by
  by_cases h : mantissaOf w = 0#24
  · simp [conv32_zero h, h]
  · rw [conv32_nonzero h, beq_iff_eq, clamp_exponent_all_ones_iff]
    exact (and_iff_right h).symm

/-- Settles O14: the flag tests the exponent field, which the clamp fills with ones exactly on overflow. -/
theorem overflowFlagMeaning : Obligations.OverflowFlagMeaning := by
  unfold Obligations.OverflowFlagMeaning
  intro w
  rw [decodeOneResponse_ovf, decodeOneResponse_ieee32]
  refine ⟨?field, conv32_overflow_iff w, fun h => by rw [conv32_zero h]⟩
  case field => rw [conv32_flag, overflowFlag, beq_iff_eq]

theorem widen_zero (g : BitVec 1) : widen (assemble32 g 0#8 0#23) = assemble64 g 0#11 0#52 := by
  simp [widen_assemble32]

theorem widen_infinity (g : BitVec 1) : widen (assemble32 g 0xFF#8 0#23) = assemble64 g 0x7FF#11 0#52 := by
  simp [widen_assemble32]

theorem decodeOneResponse_true_zero {w : Word} (h : mantissaOf w = 0#24) :
    decodeOneResponse w = ⟨false, signOf w ++ 0#31, signOf w ++ 0#63⟩ := by
  rw [decodeOneResponse_eq, conv32_zero h, widen_zero, append_zero31, append_zero63]

/-- The response of a word with a nonzero mantissa, by its clamped fields. -/
theorem decodeOneResponse_of_clamp {w : Word} (h : mantissaOf w ≠ 0#24) {X : BitVec 8} {F : BitVec 23}
    (clamped : clamp (wordExponent w) (wordFraction w) = (X, F)) :
    decodeOneResponse w = ⟨X == 255#8, assemble32 (signOf w) X F, widen (assemble32 (signOf w) X F)⟩ := by
  rw [decodeOneResponse_eq, conv32_nonzero h, clamped]

theorem decodeOneResponse_underflow {w : Word} (h : mantissaOf w ≠ 0#24) (he : wordExponent w < 0) :
    decodeOneResponse w = ⟨false, signOf w ++ 0#31, signOf w ++ 0#63⟩ := by
  rw [decodeOneResponse_of_clamp h (clamp_of_neg he _), widen_zero, append_zero31, append_zero63]
  rfl

theorem decodeOneResponse_overflow {w : Word} (h : mantissaOf w ≠ 0#24) (he : 255 ≤ wordExponent w) :
    decodeOneResponse w = ⟨true, signOf w ++ 0xFF#8 ++ 0#23, signOf w ++ 0x7FF#11 ++ 0#52⟩ := by
  rw [decodeOneResponse_of_clamp h (clamp_of_overflow he _), widen_infinity]
  rfl

/-- In range the exponent field is the computed exponent and the fraction is kept, `e = 0` included (R76, R77). -/
theorem decodeOneResponse_in_range {w : Word} (h : mantissaOf w ≠ 0#24) (low : 0 ≤ wordExponent w)
    (high : wordExponent w ≤ 254) :
    ∃ X : BitVec 8, (X.toNat : Int) = wordExponent w ∧
      decodeOneResponse w =
        ⟨false, assemble32 (signOf w) X (wordFraction w), widen (assemble32 (signOf w) X (wordFraction w))⟩ := by
  obtain ⟨neg, _⟩ | ⟨overflow, _⟩ | ⟨_, _, clamped, field⟩ := clamp_cases (wordExponent w) (wordFraction w)
  · omega
  · omega
  · have finite : BitVec.ofInt 8 (wordExponent w) ≠ 255#8 := fun ones =>
      absurd ((clamp_exponent_all_ones_iff _ _).mp ((congrArg Prod.fst clamped).trans ones)) (by omega)
    exact ⟨_, field, beq_false_of_ne finite ▸ decodeOneResponse_of_clamp h clamped⟩

/-- Executing an operation appends its response to `done` and changes nothing else. -/
theorem exec_of_instrResponse (i : Instr) {r : Response} (h : instrResponse i = r) (s : State) :
    exec i s = .next { s with done := s.done ++ [r] } := by
  rw [exec_eq, h]
  rfl

/-- Settles O16: in each of the four cases the response is known, and appending it is all the operation does. -/
theorem decodeOneResult : Obligations.DecodeOneResult := by
  unfold Obligations.DecodeOneResult
  intro w s g M n f e
  refine ⟨fun h => ?_, fun h neg => ?_, fun h overflow => ?_, fun h low high => ?_⟩
  · exact exec_of_instrResponse (.decodeOne w) (decodeOneResponse_true_zero h) s
  · exact exec_of_instrResponse (.decodeOne w) (decodeOneResponse_underflow h neg) s
  · exact exec_of_instrResponse (.decodeOne w) (decodeOneResponse_overflow h overflow) s
  · obtain ⟨X, field, response⟩ := decodeOneResponse_in_range h low high
    exact ⟨X, field, exec_of_instrResponse (.decodeOne w) response s⟩

/-! ## The response of `DECODE_DIRECT` -/

theorem directPattern_true_zero {w : Word} (h : mantissaOf w = 0#24) : directPattern w = signOf w ++ 0#63 := by
  simp [directPattern, isTrueZero, h]

/-- The biased exponent of a nonzero word fits its 11 bits and is neither 0 nor 2047 (R86, R87). -/
theorem directPattern_nonzero {w : Word} (h : mantissaOf w ≠ 0#24) :
    ∃ Y : BitVec 11,
      (Y.toNat : Int) = 4 * ((exponentOf w).toNat : Int) + 766 - (lzc24 (mantissaOf w) : Int) ∧
      743 ≤ Y.toNat ∧ Y.toNat ≤ 1274 ∧
      directPattern w = assemble64 (signOf w) Y (wordFraction w ++ 0#29) := by
  have places : lzc24 (mantissaOf w) ≤ 23 := (lzc24_bounds h).1
  have exponent : (exponentOf w).toNat < 128 := (exponentOf w).isLt
  have field : ((BitVec.ofInt 11 (4 * ((exponentOf w).toNat : Int) + 766 - (lzc24 (mantissaOf w) : Int))).toNat : Int) =
      4 * ((exponentOf w).toNat : Int) + 766 - (lzc24 (mantissaOf w) : Int) := by
    rw [BitVec.toNat_ofInt]
    omega
  refine ⟨_, field, by omega, by omega, ?_⟩
  simp [directPattern, isTrueZero, h]

theorem decodeDirectResponse_of_pattern {w : Word} {y : Double} (h : directPattern w = y) :
    decodeDirectResponse w = ⟨false, 0x00000000#32, y⟩ := by
  rw [decodeDirectResponse, h]
  rfl

/-- Settles O17: the response is the direct pattern of the word, and appending it is all the operation does. -/
theorem decodeDirectResult : Obligations.DecodeDirectResult := by
  unfold Obligations.DecodeDirectResult
  intro w s g M n f
  refine ⟨fun h => ?_, fun h => ?_⟩
  · exact exec_of_instrResponse (.decodeDirect w) (decodeDirectResponse_of_pattern (directPattern_true_zero h)) s
  · obtain ⟨Y, field, low, high, pattern⟩ := directPattern_nonzero h
    exact ⟨Y, field, low, high, exec_of_instrResponse (.decodeDirect w) (decodeDirectResponse_of_pattern pattern) s⟩

end Sys2Proof.Machine
end

section
/-! PROOFS. The values of the two operations' patterns (R48, R49) against the word's value (R46): the pattern of exponent
field 0 (R77) and the exactness of `DECODE_DIRECT` (R85). -/

namespace Sys2Proof.Machine

/-! ## The values of assembled patterns -/

theorem value32_assemble32_zero_exponent (g : BitVec 1) (F : BitVec 23) :
    value32 (assemble32 g 0#8 F) =
      if F = 0#23 then .zero (g == 1#1) else .number (signFactor g * F.toNat * 2 ^ (-149 : Int)) := by
  simp [value32]

theorem value64_assemble64_zero (g : BitVec 1) : value64 (assemble64 g 0#11 0#52) = .zero (g == 1#1) := by
  simp [value64]

theorem value64_assemble64_normal (g : BitVec 1) {Y : BitVec 11} (G : BitVec 52) (low : 0 < Y.toNat)
    (high : Y.toNat < 2047) :
    value64 (assemble64 g Y G) = .number (signFactor g * (1 + G.toNat / 2 ^ 52) * 2 ^ ((Y.toNat : Int) - 1023)) := by
  have notZero : Y ≠ 0#11 := by rintro rfl; exact absurd low (by decide)
  have notOnes : Y ≠ 2047#11 := by rintro rfl; exact absurd high (by decide)
  simp [value64, notZero, notOnes]

/-- A binary32 fraction followed by 29 zeros is the same fraction of binary64. -/
theorem widened_fraction (F : BitVec 23) : ((F ++ 0#29 : BitVec 52).toNat : Rat) / 2 ^ 52 = F.toNat / 2 ^ 23 := by
  have shifted : (F ++ 0#29 : BitVec 52).toNat = F.toNat * 2 ^ 29 := by
    rw [BitVec.toNat_append, Nat.shiftLeft_eq]
    exact Nat.or_zero _
  rw [shifted]
  push_cast
  ring

/-! ## The value of the word -/

/-- The word's value by its normalized significand: normalizing moves the point and keeps the value (R71, R85). -/
theorem ibmValue_eq {w : Word} (h : mantissaOf w ≠ 0#24) :
    ibmValue w = signFactor (signOf w) * (1 + (wordFraction w).toNat / 2 ^ 23) *
      2 ^ (4 * ((exponentOf w).toNat : Int) - 257 - (lzc24 (mantissaOf w) : Int)) := by
  have normalized : (2 : Rat) ^ 23 + (wordFraction w).toNat = (mantissaOf w).toNat * 2 ^ lzc24 (mantissaOf w) := by
    exact_mod_cast fraction_toNat h
  have significand : (1 + (wordFraction w).toNat / 2 ^ 23 : Rat) =
      (mantissaOf w).toNat * 2 ^ lzc24 (mantissaOf w) / 2 ^ 23 := by
    rw [← normalized]
    ring
  have base : (16 : Rat) ^ (((exponentOf w).toNat : Int) - 64) = 2 ^ (4 * (((exponentOf w).toNat : Int) - 64)) := by
    rw [zpow_mul]
    norm_num
  have rebased : 4 * ((exponentOf w).toNat : Int) - 257 - (lzc24 (mantissaOf w) : Int) =
      4 * (((exponentOf w).toNat : Int) - 64) - 1 - (lzc24 (mantissaOf w) : Int) := by ring
  rw [ibmValue, significand, base, rebased, zpow_sub₀ two_ne_zero, zpow_sub₀ two_ne_zero, zpow_natCast]
  field_simp

/-- Settles O20: the direct pattern's unbiased exponent is that of the normalized significand, and its fraction is the
word's. -/
theorem directValueIsExact : Obligations.DirectValueIsExact := by
  unfold Obligations.DirectValueIsExact
  intro w
  by_cases h : mantissaOf w = 0#24
  · refine ⟨?_, fun nonzero => absurd h nonzero⟩
    rw [decodeDirectResponse_of_pattern (directPattern_true_zero h), append_zero63, value64_assemble64_zero]
    simp [ibmFloat, isTrueZero, h]
  · obtain ⟨Y, field, low, high, pattern⟩ := directPattern_nonzero h
    have unbiased : (Y.toNat : Int) - 1023 =
        4 * ((exponentOf w).toNat : Int) - 257 - (lzc24 (mantissaOf w) : Int) := by omega
    refine ⟨?_, fun _ => ⟨ibmValue_eq h, by omega, by omega⟩⟩
    rw [decodeDirectResponse_of_pattern pattern, value64_assemble64_normal _ _ (by omega) (by omega), unbiased,
      widened_fraction, ← ibmValue_eq h]
    simp [ibmFloat, isTrueZero, h]

/-! ## The pattern of exponent field 0 -/

theorem signFactor_ne_zero (g : BitVec 1) : signFactor g ≠ 0 := by
  rw [signFactor]
  split <;> norm_num

/-- Equal values would need `2·(F/2^23) = 1 + F/2^23`, that is a fraction of 1, and a fraction is less than that. -/
theorem subnormal_ne_normal (F : BitVec 23) :
    (F.toNat : Rat) * 2 ^ (-149 : Int) ≠ (1 + F.toNat / 2 ^ 23) * 2 ^ (-127 : Int) := by
  have bound : (F.toNat : Rat) < 2 ^ 23 := by exact_mod_cast F.isLt
  intro equal
  norm_num at equal
  linarith

/-- Settles O19: at `e = 0` the pattern is in range with exponent field 0, and equality of the two values would need a
fraction of 1. -/
theorem zeroExponentPattern : Obligations.ZeroExponentPattern := by
  unfold Obligations.ZeroExponentPattern
  intro w h zero f
  obtain ⟨X, field, response⟩ := decodeOneResponse_in_range h zero.ge (by omega)
  obtain rfl : X = 0#8 := BitVec.eq_of_toNat_eq (by rw [zero] at field; exact_mod_cast field)
  have exponent : 4 * ((exponentOf w).toNat : Int) - 257 - (lzc24 (mantissaOf w) : Int) = -127 := by
    rw [wordExponent, computedExponent] at zero
    omega
  have wordValue := ibmValue_eq h
  rw [exponent] at wordValue
  rw [response]
  refine ⟨rfl, rfl, value32_assemble32_zero_exponent _ _, wordValue, ?differs⟩
  case differs =>
    rw [value32_assemble32_zero_exponent, wordValue]
    split
    · exact FloatValue.noConfusion
    · rw [Ne, FloatValue.number.injEq, mul_assoc, mul_assoc, mul_right_inj' (signFactor_ne_zero _)]
      exact subnormal_ne_normal _

end Sys2Proof.Machine
end

section
/-! PROOFS. The one exception (R104, R105): the cause and the typed error of a response, and the request that raises it. -/

namespace Sys2Proof.Machine

theorem cause_eq_overflow_iff (r : Response) : r.cause = .overflow ↔ r.ovf = true := by
  rw [Response.cause]
  cases r.ovf <;> simp

theorem result_eq_overflow_iff (r : Response) : r.result = .error .overflow ↔ r.ovf = true := by
  rw [Response.result]
  cases r.ovf <;> simp

/-- `DECODE_DIRECT` never sets the bit (R87), and `DECODE_ONE` sets it exactly on a clamp to overflow (R79). -/
theorem execRequest_ovf_iff (r : Request) :
    (execRequest r).ovf = true ↔ r.mode = false ∧ mantissaOf r.word ≠ 0#24 ∧ 255 ≤ wordExponent r.word := by
  rw [execRequest_eq]
  cases r.mode with
  | false => simp [conv32_overflow_iff]
  | true => simp [decodeDirectResponse, succeed]

/-- The response of a request that raises the exception carries the clamped patterns (R75, R81). -/
theorem execRequest_overflow {r : Request} (h : (execRequest r).ovf = true) :
    execRequest r = ⟨true, signOf r.word ++ 0xFF#8 ++ 0#23, signOf r.word ++ 0x7FF#11 ++ 0#52⟩ := by
  obtain ⟨mode, nonzero, overflow⟩ := (execRequest_ovf_iff r).mp h
  rw [execRequest_eq, mode]
  exact decodeOneResponse_overflow nonzero overflow

/-- Settles O22: the cause and the typed error both read the bit `ovf`, which `DECODE_ONE` alone sets. -/
theorem overflowIsTheOnlyException : Obligations.OverflowIsTheOnlyException := by
  unfold Obligations.OverflowIsTheOnlyException
  intro r
  rw [cause_eq_overflow_iff, result_eq_overflow_iff]
  refine ⟨execRequest_ovf_iff r, Iff.rfl, fun raised => ?patterns, Iff.rfl⟩
  case patterns =>
    rw [execRequest_overflow raised]
    exact ⟨rfl, rfl⟩

end Sys2Proof.Machine
end

section
/-! PROOFS. The block at its edges and at its moves: the sampling of the request pins (R125), the reset edge (R119), and
the end of a program's run (R132). -/

namespace Sys2Proof.Machine

/-! ## The request pins -/

/-- An edge reads `req_mode` and `req_word` only where it accepts the request. -/
theorem edge_eq_of_not_accepted {p : Params} {s : State} {a b : Pins} (k : Nat) (hrst : a.rst = b.rst)
    (hready : a.rspReady = b.rspReady) (ha : accepted p a s = false) (hb : accepted p b s = false) :
    edge p a k s = edge p b k s := by
  have htaken : taken p a s = taken p b s := by rw [taken, taken, hrst, hready]
  rw [edge, edge, hrst, htaken, ha, hb]
  rfl

/-- Settles O37: nothing is accepted where nothing is offered or the block is not ready, and an accepted request goes
behind what is left of `pend`. -/
theorem requestSampling : Obligations.RequestSampling := by
  unfold Obligations.RequestSampling
  constructor
  · intro p s a b k hrst hready ha hb
    exact edge_eq_of_not_accepted k hrst hready (Bool.and_eq_false_iff.mpr ha) (Bool.and_eq_false_iff.mpr hb)
  · intro p s a k hw hvalid hready
    have haccepted : accepted p a s = true := Bool.and_eq_true_iff.mpr ⟨hvalid, hready⟩
    obtain ⟨_, hrst, _⟩ := accepted_iff.mp haccepted
    refine ⟨_, edge_completes p a k s hrst hw, ?_⟩
    rw [haccepted]
    rfl

/-! ## The moves of the schedule -/

/-- The step takes the first move of its schedule. -/
theorem stepWith_takes {p : Params} {s : State} {m : Move} {ms : List Move} (hs : s.schedule = m :: ms) :
    stepWith p s = takeMove p m s.advance := by
  rw [stepWith, hs]

theorem afterReset_of_wasReset {s : State} (hw : s.wasReset = true) (o : Result) : afterReset s o = o := if_pos hw

theorem stepWith_reset_edge {p : Params} {s : State} {pins : Pins} {k : Nat} {ms : List Move}
    (hs : s.schedule = .edge pins k :: ms) (hrst : pins.rst = true) :
    stepWith p s = .next s.advance.resetEdge := by
  rw [stepWith_takes hs]
  exact if_pos hrst

/-- Settles O39: the step is `resetEdge` whatever the block holds, and both handshakes are read with `rst = 1`. -/
theorem resetEdge : Obligations.ResetEdge := by
  unfold Obligations.ResetEdge
  intro p s pins k ms hs hrst
  refine ⟨by simp [hrst], by simp [hrst], _, stepWith_reset_edge hs hrst, rfl, rfl, rfl, ?receipts, ?schedule⟩
  case receipts => simp
  case schedule => simp [hs]

/-- A scheduled Issue with room for its request. -/
theorem stepWith_issue {p : Params} {s : State} {r : Request} {ms : List Move} (hw : s.wasReset = true)
    (hroom : s.occupancy < p.depth) (hs : s.schedule = .issue r :: ms) :
    stepWith p s = .next (s.advance.accept r) := by
  rw [stepWith_takes hs, takeMove, afterReset_of_wasReset (s := s.advance) hw]
  exact issue_enabled hroom

/-- A scheduled Collect with a response to take. -/
theorem stepWith_collect {p : Params} {s : State} {r : Response} {rest : List Response} {ms : List Move}
    (hw : s.wasReset = true) (hd : s.done = r :: rest) (hs : s.schedule = .collect :: ms) :
    stepWith p s = .next (s.advance.deliver r) := by
  rw [stepWith_takes hs, takeMove, afterReset_of_wasReset (s := s.advance) hw]
  exact collect_cons hd

/-! ## The end of a run -/

/-- In order and with as many responses collected as requests issued, nothing is left in the queues, and the collected
responses are those of all the requests. -/
theorem collected_all_of_inOrder {s : State} (hs : inOrder s) (hlen : s.collected.length = s.issued.length) :
    s.pend = [] ∧ s.done = [] ∧ s.collected = s.issued.map execRequest := by
  unfold inOrder at hs
  have counted : s.collected.length + (s.done.length + s.pend.length) = s.issued.length := by
    simpa using congrArg List.length hs
  have hpend : s.pend = [] := List.eq_nil_of_length_eq_zero (by omega)
  have hdone : s.done = [] := List.eq_nil_of_length_eq_zero (by omega)
  exact ⟨hpend, hdone, by simpa [hpend, hdone] using hs⟩

theorem runWith_of_step {p : Params} {k : Nat} {s u : State} (h : stepWith p s = .next u) :
    runWith p (k + 1) s = runWith p k u := by
  rw [runWith, h, andThen_next]

/-- From empty queues a request issued, converted and collected leaves empty queues. -/
theorem runWith_one_request {p : Params} {s : State} {r : Request} {ms : List Move} (hdepth : 0 < p.depth)
    (hw : s.wasReset = true) (hp : s.pend = []) (hd : s.done = [])
    (hs : s.schedule = .issue r :: .convert :: .collect :: ms) :
    runWith p 3 s =
      .next { s with
        issued := s.issued ++ [r], collected := s.collected ++ [execRequest r], schedule := ms
        freeTick := s.freeTick + 3 } := by
  have hroom : s.occupancy < p.depth := by simpa [State.occupancy, hp, hd] using hdepth
  have accepted_pend : (s.advance.accept r).pend = [r] := by simp [hp]
  have accepted_schedule : (s.advance.accept r).schedule = .convert :: .collect :: ms := by simp [hs]
  rw [runWith_of_step (stepWith_issue hw hroom hs),
    runWith_of_step (stepWith_convert (s := s.advance.accept r) hw accepted_pend accepted_schedule),
    runWith_of_step (stepWith_collect (r := execRequest r) (rest := []) (ms := ms) ?reset ?produced rfl)]
  case reset => exact hw
  case produced => simp [hd]
  refine congrArg Host.Outcome.next ?_
  ext1 <;> simp [hp, hd]

/-- The sequential schedule completes from empty queues, at every depth of at least 1 (R63). -/
theorem runWith_sequential {p : Params} (hdepth : 0 < p.depth) (rs : List Request) {s : State}
    (hw : s.wasReset = true) (hp : s.pend = []) (hd : s.done = []) (hs : s.schedule = sequential rs) :
    runWith p (3 * rs.length) s =
      .next { s with
        issued := s.issued ++ rs, collected := s.collected ++ rs.map execRequest, schedule := []
        freeTick := s.freeTick + 3 * rs.length } := by
  induction rs generalizing s with
  | nil =>
    refine congrArg Host.Outcome.next ?_
    ext1 <;> simp [hs, sequential]
  | cons r rs ih =>
    rw [show 3 * (r :: rs).length = 3 + 3 * rs.length by simp; omega, runWith_add,
      runWith_one_request hdepth hw hp hd hs, andThen_next]
    refine (ih ?wasReset ?pend ?done ?schedule).trans (congrArg Host.Outcome.next ?states)
    case wasReset => exact hw
    case pend => exact hp
    case done => exact hd
    case schedule => rfl
    case states => ext1 <;> simp [Nat.add_assoc]

theorem sequential_noReset (rs : List Request) : (sequential rs).all noReset = true := by
  induction rs with
  | nil => rfl
  | cons r rs ih => simpa [sequential, noReset] using ih

/-- Settles O53: the order of responses holds at the end of every run, and the sequential schedule is a run of every
program. -/
theorem programResult : Obligations.ProgramResult := by
  unfold Obligations.ProgramResult
  constructor
  · rintro p rs moves k t _ hrun rfl hlen
    have ordered : inOrder t := runWith_keeps (stepWith_keeps_inOrder p) k (State.scheduled moves) t rfl hrun
    exact collected_all_of_inOrder ordered hlen
  · intro p rs hp
    refine ⟨sequential_noReset rs, _, runWith_sequential (depth_pos_of_legal hp) rs rfl rfl rfl rfl, ?_⟩
    simp [finished]

end Sys2Proof.Machine
end

section
/-! PROOFS. The numbers that are requests (R58), the decoder's other entries, and the places of a response's fields
(R52). -/

namespace Sys2Proof

open Sys2Proof.Machine

theorem unpack_pack (r : Request) : Request.unpack r.pack = r := by
  have mode : r.pack.getLsbD 32 = r.mode := BitVec.getLsbD_append.trans (by simp)
  have word : r.pack.extractLsb' 0 32 = r.word := BitVec.extractLsb'_append_eq_right
  rw [Request.unpack, mode, word]

theorem decodeTableWord_toNat (v : BitVec 33) : decodeTableWord 33 v.toNat = some (decode v) := by
  rw [decodeTableWord, Nat.mod_eq_of_lt v.isLt, decodeNumber_toNat]
  rfl

/-- Settles O1: each entry of the decoder gives what `decode` gives of the request, and `decode` and `encode` invert
each other. -/
theorem decodeInvertsEncode : Obligations.DecodeInvertsEncode := by
  unfold Obligations.DecodeInvertsEncode
  refine ⟨fun i _ => ⟨decode_encode i, ?number, ?table, ?unpacked⟩, encode_decode⟩
  case number => rw [decodeNumber_toNat, decode_encode]
  case table => rw [decodeTableWord_toNat, decode_encode]
  case unpacked => rw [pack_unpack, decode_encode]

/-- Settles O3: a number of at most 33 bits is that of its request, and a longer one fails the only test. -/
theorem onlyThirtyThreeBitsDecode : Obligations.OnlyThirtyThreeBitsDecode := by
  unfold Obligations.OnlyThirtyThreeBitsDecode
  intro v
  constructor
  · intro short
    have number : (BitVec.ofNat 33 v).toNat = v := Nat.mod_eq_of_lt short
    refine ⟨decode (BitVec.ofNat 33 v), ?decoded, by rw [encode_decode, number]⟩
    rw [← decodeNumber_toNat, number]
  · intro long
    have rejected : ¬ isRequestNumber v = true := by simpa [isRequestNumber] using long
    exact if_neg rejected

/-- Settles O5: each word is the encoding of its instruction. -/
theorem writtenWordsDecode : Obligations.WrittenWordsDecode := by
  unfold Obligations.WrittenWordsDecode
  exact ⟨decode_encode (.decodeOne 0xC2700000#32), decode_encode (.decodeOne 0x41100000#32),
    decode_encode (.decodeDirect 0x00100000#32), decode_encode (.decodeDirect 0xC2700000#32)⟩

end Sys2Proof

namespace Sys2Proof.Machine

/-! ## The 97 bits of a response -/

section PackedFields

variable (r : Response)

theorem pack_ovf : r.pack.getLsbD 96 = r.ovf :=
  BitVec.getLsbD_append.trans (BitVec.getLsbD_append.trans (by simp))

theorem pack_ieee64 : r.pack.extractLsb' 32 64 = r.ieee64 :=
  (BitVec.extractLsb'_append_eq_of_le (Nat.le_refl 32)).trans BitVec.extractLsb'_append_eq_right

theorem pack_ieee32 : r.pack.extractLsb' 0 32 = r.ieee32 := BitVec.extractLsb'_append_eq_right

end PackedFields

/-- Settles O6: a response is read off its fields' places, and the three places are all 97 bits. -/
theorem responseFieldPlaces : Obligations.ResponseFieldPlaces := by
  unfold Obligations.ResponseFieldPlaces
  refine ⟨fun r => ⟨pack_ovf r, pack_ieee64 r, pack_ieee32 r, ?unpacked⟩, fun v => ?packed⟩
  case unpacked => rw [Response.unpack, pack_ovf, pack_ieee64, pack_ieee32]
  case packed =>
    have flag : BitVec.ofBool (v.getLsbD 96) = v.extractLsb' 96 1 :=
      BitVec.eq_of_getLsbD_eq fun k hk => by
        obtain rfl : k = 0 := by omega
        simp
    have upper : v.extractLsb' 96 1 ++ v.extractLsb' 32 64 = v.extractLsb' 32 65 :=
      BitVec.extractLsb'_append_extractLsb'_eq_extractLsb' rfl
    calc
      (Response.unpack v).pack = v.extractLsb' 96 1 ++ v.extractLsb' 32 64 ++ v.extractLsb' 0 32 :=
        congrArg (· ++ v.extractLsb' 32 64 ++ v.extractLsb' 0 32) flag
      _ = v.extractLsb' 32 65 ++ v.extractLsb' 0 32 := congrArg (· ++ v.extractLsb' 0 32) upper
      _ = v := BitVec.extractLsb'_append_extractLsb' (w := 65) (len := 32)

end Sys2Proof.Machine
end

section
/-! PROOFS. The order of responses along a run (R30). -/

namespace Sys2Proof.Machine

theorem collected_isPrefix_of_inOrder {s : State} (hs : inOrder s) : s.collected <+: s.issued.map execRequest :=
  ⟨s.done ++ s.pend.map execRequest, by rw [← hs, List.append_assoc]⟩

theorem runWith_keeps_inOrder {p : Params} {k : Nat} {s t : State} (hs : inOrder s) (h : runWith p k s = .next t) :
    inOrder t :=
  runWith_keeps (stepWith_keeps_inOrder p) k s t hs h

/-- Settles O46: the order of responses is kept along the run, and in it the collected ones stand first. -/
theorem collectedIsPrefixOfIssued : Obligations.CollectedIsPrefixOfIssued := by
  unfold Obligations.CollectedIsPrefixOfIssued
  constructor
  · intro p k s t hs h
    exact collected_isPrefix_of_inOrder (runWith_keeps_inOrder hs h)
  · intro k s t hs h
    rw [core_run_eq] at h
    exact collected_isPrefix_of_inOrder (runWith_keeps_inOrder hs h)

end Sys2Proof.Machine
end

section
/-! PROOFS. The assembler on every printed program, on every spelling of a word, and on words too long (R59 to R61). -/

namespace Sys2Proof.Machine

/-! ## One line -/

/-- A single line is read to its newline, whether it assembles or not. -/
theorem assembleFrom_single_line {line : List Char} (h : line.all staysInOperation = true) (before : List Char) :
    assembleFrom before (line ++ ['\n']) = assembleLine (before ++ line) := by
  induction line generalizing before with
  | nil =>
    rw [List.append_nil]
    cases read : assembleLine before <;> simp [assembleFrom, read]
  | cons c cs ih =>
    obtain ⟨hc, hcs⟩ : staysInOperation c = true ∧ cs.all staysInOperation = true := by simpa using h
    obtain ⟨no_newline, _⟩ := staysInOperation_iff.mp hc
    simpa [assembleFrom, no_newline] using ih hcs (before ++ [c])

theorem assemble_single_line {line : List Char} (h : line.all staysInOperation = true) :
    assemble (printProgram [line]) = assembleLine line := by
  simpa [assemble, printProgram] using assembleFrom_single_line h []

theorem parseOperation_directToken (rest : List Char) :
    parseOperation (directToken ++ rest) = finish (fun w => [⟨true, w⟩]) (parseWord rest) := by
  have not_one : afterToken oneToken (directToken ++ rest) = none := rfl
  rw [parseOperation, not_one, afterToken_append]

/-! ## Printed instructions -/

theorem printLine_stay (i : Instr) : (printLine i).all staysInOperation = true := by
  cases i with
  | decodeOne w => exact printLine_decodeOne_stay w
  | decodeDirect w =>
    have opening : (directToken ++ [' ']).all staysInOperation = true := by decide
    simpa [printLine, printHex_stay] using opening

theorem parseOperation_printLine_decodeDirect (w : Word) :
    parseOperation (printLine (.decodeDirect w)) = .ok [⟨true, w⟩] := by
  have word : parseWord (' ' :: printHex 8 w.toNat) = .ok (w, []) := by
    simpa using parseWord_printHex w (rest := []) rfl
  rw [printLine, parseOperation_directToken, word]
  rfl

theorem assembleLine_printLine (i : Instr) : assembleLine (printLine i) = .ok [Request.unpack (encode i)] := by
  cases i with
  | decodeOne w =>
    have request : Request.unpack (encode (.decodeOne w)) = ⟨false, w⟩ := unpack_pack ⟨false, w⟩
    rw [request, assembleLine_printLine_decodeOne]
  | decodeDirect w =>
    have request : Request.unpack (encode (.decodeDirect w)) = ⟨true, w⟩ := unpack_pack ⟨true, w⟩
    rw [request, ← parseOperation_printLine_decodeDirect]
    exact assembleLine_of_stay (printLine_stay (.decodeDirect w)) rfl

theorem assemble_printed_instructions (is : List Instr) :
    assemble (printProgram (is.map printLine)) = .ok (is.map fun i => Request.unpack (encode i)) := by
  rw [List.map_eq_flatMap (f := fun i => Request.unpack (encode i))]
  exact assemble_printProgram printLine (fun i => [Request.unpack (encode i)]) is printLine_stay assembleLine_printLine

/-! ## Printed requests -/

theorem hexDigit_mod (d : Nat) : hexDigit (d % 16) = hexDigit d := by simp [hexDigit]

/-- The first of `k + 1` printed digits is that of the number's upper part. -/
theorem hexDigits_succ (k v : Nat) : hexDigits (k + 1) v = hexDigit (v / 16 ^ k) :: hexDigits k v := by
  induction k generalizing v with
  | zero => simp [hexDigits]
  | succ k ih => rw [hexDigits, ih, Nat.div_div_eq_div_mul, ← Nat.pow_succ', List.cons_append, hexDigits]

/-- Only the low `k` digits of a number are printed. -/
theorem hexDigits_add_mul (k v a : Nat) : hexDigits k (16 ^ k * a + v) = hexDigits k v := by
  induction k generalizing v with
  | zero => rfl
  | succ k ih =>
    have upper : (16 ^ (k + 1) * a + v) / 16 = 16 ^ k * a + v / 16 := by
      rw [Nat.pow_succ', Nat.mul_assoc]; omega
    have lower : (16 ^ (k + 1) * a + v) % 16 = v % 16 := by
      rw [Nat.pow_succ', Nat.mul_assoc]; omega
    rw [hexDigits, hexDigits, upper, ih, ← hexDigit_mod, lower, hexDigit_mod]

/-- The number of a request: its mode above the 32 bits of its word (R50). -/
theorem pack_toNat (r : Request) : r.pack.toNat = 16 ^ 8 * r.mode.toNat + r.word.toNat := by
  rw [Request.pack, BitVec.toNat_append, BitVec.toNat_ofBool, ← Nat.shiftLeft_add_eq_or_of_lt r.word.isLt,
    Nat.shiftLeft_eq]
  omega

theorem printRequest_eq (r : Request) :
    printRequest r = '0' :: 'x' :: hexDigit r.mode.toNat :: hexDigits 8 r.word.toNat := by
  have upper : (16 ^ 8 * r.mode.toNat + r.word.toNat) / 16 ^ 8 = r.mode.toNat := by
    have := r.word.isLt
    omega
  rw [printRequest, printHex, hexDigits_succ, pack_toNat, upper, hexDigits_add_mul]

/-! ## Spellings of a word -/

/-- A digit of a word, in lower case where the flag is set (R60). -/
def spelledDigit (d : Fin 16 × Bool) : Char :=
  ((if d.2 then "0123456789abcdef" else "0123456789ABCDEF").toList[d.1.val]?).getD ' '

/-- The number that digits of either case spell. -/
def spelledNumber (ds : List (Fin 16 × Bool)) : Nat := Nat.ofDigits 16 (ds.map (·.1.val)).reverse

theorem hexValue_spelledDigit (d : Fin 16 × Bool) : hexValue (spelledDigit d) = some d.1.val := by
  have digits : ∀ (v : Fin 16) (b : Bool), hexValue (spelledDigit (v, b)) = some v.val := by decide
  exact digits d.1 d.2

theorem spelled_stay (ds : List (Fin 16 × Bool)) : (ds.map spelledDigit).all staysInOperation = true := by
  have digits : ∀ (v : Fin 16) (b : Bool), staysInOperation (spelledDigit (v, b)) = true := by decide
  simp [digits]

theorem takeHex_spelled (ds : List (Fin 16 × Bool)) : takeHex (ds.map spelledDigit) = (ds.map (·.1.val), []) := by
  induction ds with
  | nil => rfl
  | cons d ds ih => simp [takeHex, hexValue_spelledDigit, ih]

theorem hexNumber_eq_ofDigits (ds : List Nat) : hexNumber ds = Nat.ofDigits 16 ds.reverse := by
  induction ds using List.reverseRecOn with
  | nil => rfl
  | append_singleton ds d ih => rw [hexNumber_concat, ih, List.reverse_concat, Nat.ofDigits_cons]; omega

theorem spelledNumber_lt (ds : List (Fin 16 × Bool)) : spelledNumber ds < 16 ^ ds.length := by
  have digits : ∀ d ∈ (ds.map (·.1.val)).reverse, d < 16 := by
    simp only [List.mem_reverse, List.mem_map]
    rintro _ ⟨d, _, rfl⟩
    exact d.1.isLt
  simpa [spelledNumber] using Nat.ofDigits_lt_base_pow_length (by decide) digits

/-- The operand as it stands behind a mnemonic. -/
def spelledOperand (ds : List (Fin 16 × Bool)) : List Char := ' ' :: '0' :: 'x' :: ds.map spelledDigit

theorem spelledOperand_stay (ds : List (Fin 16 × Bool)) : (spelledOperand ds).all staysInOperation = true := by
  have opening : [' ', '0', 'x'].all staysInOperation = true := by decide
  have parts : spelledOperand ds = [' ', '0', 'x'] ++ ds.map spelledDigit := rfl
  rw [parts, List.all_append, opening, spelled_stay]
  rfl

theorem afterToken_spelledOperand (ds : List (Fin 16 × Bool)) :
    afterToken ['0', 'x'] (skipBlanks (spelledOperand ds)) = some (ds.map spelledDigit) := rfl

theorem parseWord_spelled {ds : List (Fin 16 × Bool)} (low : 1 ≤ ds.length) (high : ds.length ≤ 8) :
    parseWord (spelledOperand ds) = .ok (BitVec.ofNat 32 (spelledNumber ds), []) := by
  simp only [parseWord, afterToken_spelledOperand, takeHex_spelled, List.length_map, hexNumber_eq_ofDigits]
  rw [if_neg (by omega), if_neg (by omega)]
  rfl

theorem parseWord_too_long {ds : List (Fin 16 × Bool)} (long : 8 < ds.length) :
    parseWord (spelledOperand ds) = .error .wordTooLong := by
  simp only [parseWord, afterToken_spelledOperand, takeHex_spelled, List.length_map]
  rw [if_neg (by omega), if_pos long]

/-- A single operand of `decode_many` is read as that of the other two operations is. -/
theorem parseWords_spelled {ds : List (Fin 16 × Bool)} (low : 1 ≤ ds.length) (high : ds.length ≤ 8) :
    parseWords (spelledOperand ds) = .ok ([BitVec.ofNat 32 (spelledNumber ds)], []) := by
  have nonempty : (skipBlanks (spelledOperand ds)).isEmpty = false := rfl
  rw [parseWords, nonempty, parseWord_spelled low high]
  rfl

theorem parseWords_too_long {ds : List (Fin 16 × Bool)} (long : 8 < ds.length) :
    parseWords (spelledOperand ds) = .error .wordTooLong := by
  have nonempty : (skipBlanks (spelledOperand ds)).isEmpty = false := rfl
  rw [parseWords, nonempty, parseWord_too_long long]
  rfl

/-- A line of a mnemonic and a spelled operand is that operation and nothing else. -/
theorem assemble_token_operand {token cs : List Char} {c : Char} (ht : token = c :: cs)
    (h : token.all staysInOperation = true) (hc : isBlank c = false) (ds : List (Fin 16 × Bool)) :
    assemble (printProgram [token ++ spelledOperand ds]) = parseOperation (token ++ spelledOperand ds) := by
  have stay : (token ++ spelledOperand ds).all staysInOperation = true := by
    rw [List.all_append, h, spelledOperand_stay]
    rfl
  subst ht
  exact (assemble_single_line stay).trans (assembleLine_of_stay stay hc)

section Mnemonics

variable (ds : List (Fin 16 × Bool))

theorem assemble_one_spelled :
    assemble (printProgram [oneToken ++ spelledOperand ds]) =
      finish (fun w => [⟨false, w⟩]) (parseWord (spelledOperand ds)) :=
  (assemble_token_operand (token := oneToken) rfl (by decide) (by decide) ds).trans (parseOperation_oneToken _)

theorem assemble_direct_spelled :
    assemble (printProgram [directToken ++ spelledOperand ds]) =
      finish (fun w => [⟨true, w⟩]) (parseWord (spelledOperand ds)) :=
  (assemble_token_operand (token := directToken) rfl (by decide) (by decide) ds).trans (parseOperation_directToken _)

theorem assemble_many_spelled :
    assemble (printProgram [manyToken ++ spelledOperand ds]) =
      finish expandMany (parseWords (spelledOperand ds)) :=
  (assemble_token_operand (token := manyToken) rfl (by decide) (by decide) ds).trans (parseOperation_manyToken _)

end Mnemonics

/-- One to eight digits of either case are the word of their value, whatever the operation (R60). -/
theorem assemble_spelled {ds : List (Fin 16 × Bool)} (low : 1 ≤ ds.length) (high : ds.length ≤ 8) :
    ∃ w : Word, w.toNat = spelledNumber ds ∧
      assemble (printProgram [oneToken ++ spelledOperand ds]) = .ok [⟨false, w⟩] ∧
      assemble (printProgram [directToken ++ spelledOperand ds]) = .ok [⟨true, w⟩] ∧
      assemble (printProgram [manyToken ++ spelledOperand ds]) = .ok [⟨false, w⟩] := by
  have fits : spelledNumber ds < 2 ^ 32 :=
    (spelledNumber_lt ds).trans_le (Nat.pow_le_pow_right (n := 16) (by decide) high)
  refine ⟨BitVec.ofNat 32 (spelledNumber ds), Nat.mod_eq_of_lt fits, ?one, ?direct, ?many⟩
  case one => rw [assemble_one_spelled, parseWord_spelled low high]; rfl
  case direct => rw [assemble_direct_spelled, parseWord_spelled low high]; rfl
  case many => rw [assemble_many_spelled, parseWords_spelled low high]; rfl

/-- More than eight digits are refused, whatever the operation (R60). -/
theorem assemble_too_long {ds : List (Fin 16 × Bool)} (long : 8 < ds.length) :
    ∀ token ∈ [oneToken, directToken, manyToken],
      assemble (printProgram [token ++ spelledOperand ds]) = .error .wordTooLong := by
  rw [List.forall_mem_cons, List.forall_mem_cons, List.forall_mem_singleton]
  refine ⟨?one, ?direct, ?many⟩
  case one => rw [assemble_one_spelled, parseWord_too_long long]; rfl
  case direct => rw [assemble_direct_spelled, parseWord_too_long long]; rfl
  case many => rw [assemble_many_spelled, parseWords_too_long long]; rfl

/-- Settles O58: a printed program assembles line by line, a printed request is its mode digit before its word's, and
what a spelled operand is read as does not depend on the mnemonic before it. -/
theorem assemblerReadsPrintedPrograms : Obligations.AssemblerReadsPrintedPrograms := by
  unfold Obligations.AssemblerReadsPrintedPrograms
  refine ⟨assemble_printed_instructions, fun w => ⟨?one, ?direct⟩, fun ds => ⟨assemble_spelled, assemble_too_long⟩⟩
  case one => exact (congrArg printRequest (unpack_pack ⟨false, w⟩)).trans (printRequest_eq ⟨false, w⟩)
  case direct => exact (congrArg printRequest (unpack_pack ⟨true, w⟩)).trans (printRequest_eq ⟨true, w⟩)

end Sys2Proof.Machine
end

section
/-! PROOFS. The regions of the computed exponent: its range (R73), overflow (R90), underflow (R91) and the words of
exponent 0 (R92). -/

namespace Sys2Proof.Machine

theorem wordExponent_eq (w : Word) :
    wordExponent w = 4 * ((exponentOf w).toNat : Int) - 130 - (lzc24 (mantissaOf w) : Int) := rfl

theorem exponentOf_lt (w : Word) : (exponentOf w).toNat < 128 := (exponentOf w).isLt

theorem mantissaOf_ne_zero_of_normalized {w : Word} (hw : isNormalized w = true) : mantissaOf w ≠ 0#24 := by
  intro zero
  have digit : topNibble w = (mantissaOf w).extractLsb' 20 4 := (BitVec.extractLsb'_extractLsb'_of_le (by decide)).symm
  rw [isNormalized, digit, zero] at hw
  exact absurd hw (by decide)

theorem isNormalized_iff {w : Word} (h : mantissaOf w ≠ 0#24) :
    isNormalized w = true ↔ lzc24 (mantissaOf w) ≤ 3 := by
  rw [isNormalized, bne_iff_ne, Ne, topNibble_eq_zero_iff h]
  omega

/-- Settles O11: the exponent is below 128 and the shift count at most 23, and the least and the largest word reach the
ends. -/
theorem exponentRange : Obligations.ExponentRange := by
  unfold Obligations.ExponentRange
  refine ⟨fun w h => ?range, ⟨0x00000001#32, by decide⟩, ⟨0x7FFFFFFF#32, by decide⟩⟩
  case range =>
    have exponent := exponentOf_lt w
    have places : lzc24 (mantissaOf w) ≤ 23 := (lzc24_bounds h).1
    have low : -153 ≤ wordExponent w := by rw [wordExponent_eq]; omega
    have high : wordExponent w ≤ 378 := by rw [wordExponent_eq]; omega
    refine ⟨low, high, ?_⟩
    rw [BitVec.toInt_ofInt]
    exact Int.bmod_eq_of_le (by omega) (by omega)

/-- Settles O23: the flag is set exactly from the exponent 255 on, which is a bound on `4E - n`. -/
theorem overflowRegion : Obligations.OverflowRegion := by
  unfold Obligations.OverflowRegion
  intro w n E
  have region : (decodeOneResponse w).ovf = true ↔ mantissaOf w ≠ 0#24 ∧ 385 ≤ 4 * (E : Int) - (n : Int) := by
    rw [decodeOneResponse_ovf, conv32_overflow_iff, wordExponent_eq]
    exact and_congr_right fun _ => by omega
  refine ⟨region.trans (and_congr_right fun _ => by omega), region, fun normalized => ?normalized,
    fun h largest => ?largest, fun low => ?low⟩
  case normalized =>
    have h := mantissaOf_ne_zero_of_normalized normalized
    have few : n ≤ 3 := lzc24_le_three_of_normalized h normalized
    rw [region, and_iff_right h]
    omega
  case largest =>
    have places : n ≤ 23 := (lzc24_bounds h).1
    exact region.mpr ⟨h, by omega⟩
  case low => exact Bool.eq_false_iff.mpr fun raised => by have := (region.mp raised).2; omega

/-- Settles O24: the exponent is negative exactly in the region, and there, as for a true zero, the result is a zero. -/
theorem underflowRegion : Obligations.UnderflowRegion := by
  unfold Obligations.UnderflowRegion
  intro w n E
  have region : E ≤ 32 + (n + 1) / 4 ↔ wordExponent w < 0 := by rw [wordExponent_eq]; omega
  refine ⟨fun flushed => ?zero, region, fun _ low => region.mp (by omega), fun normalized least => ?least⟩
  case zero =>
    by_cases h : mantissaOf w = 0#24
    · exact decodeOneResponse_true_zero h
    · exact decodeOneResponse_underflow h (region.mp (flushed.resolve_left h))
  case least =>
    have few : n ≤ 3 := lzc24_le_three_of_normalized (mantissaOf_ne_zero_of_normalized normalized) normalized
    rw [← region]
    omega

/-- The shift count is fixed by the two powers of two that bracket the mantissa. -/
theorem lzc24_eq_iff {M : BitVec 24} (h : M ≠ 0#24) {n : Nat} (hn : n ≤ 23) :
    lzc24 M = n ↔ 2 ^ (23 - n) ≤ M.toNat ∧ M.toNat < 2 ^ (24 - n) := by
  obtain ⟨hlt, lower, upper⟩ := lzc24_brackets_mantissa h
  constructor
  · rintro rfl
    exact ⟨lower, upper⟩
  · rintro ⟨lower', upper'⟩
    have notMore : 23 - n < 24 - lzc24 M := (Nat.pow_lt_pow_iff_right (by decide)).mp (lower'.trans_lt upper)
    have notLess : 23 - lzc24 M < 24 - n := (Nat.pow_lt_pow_iff_right (by decide)).mp (lower.trans_lt upper')
    omega

/-- Settles O25: the exponent is 0 exactly where `4E = 130 + n`, and a count of 0..23 leaves six solutions. -/
theorem zeroExponentPairs : Obligations.ZeroExponentPairs := by
  unfold Obligations.ZeroExponentPairs
  intro w h n E
  have places : n ≤ 23 := (lzc24_bounds h).1
  have zero : wordExponent w = 0 ↔ 4 * E = 130 + n := by rw [wordExponent_eq]; omega
  rw [zero]
  refine ⟨?pairs, fun solved => ?normalized, fun normalized => ?binade⟩
  case pairs =>
    simp only [List.mem_cons, List.not_mem_nil, or_false, Prod.mk.injEq]
    omega
  case normalized =>
    rw [isNormalized_iff h, Prod.mk.injEq]
    omega
  case binade =>
    have few : n ≤ 3 := (isNormalized_iff h).mp normalized
    have two : n = 2 ↔ 0x200000#24 ≤ mantissaOf w ∧ mantissaOf w ≤ 0x3FFFFF#24 := by
      rw [lzc24_eq_iff h (by decide), BitVec.le_def, BitVec.le_def]
      exact and_congr_right fun _ => Nat.lt_succ_iff
    rw [← two]
    omega

end Sys2Proof.Machine
end

section
/-! PROOFS. Values: widening keeps them (R80), and `DECODE_ONE` gives the word's value exactly in the normal range of
binary32 (R89, R95). -/

namespace Sys2Proof.Machine

/-! ## Widening -/

theorem value32_assemble32_infinity (g : BitVec 1) (F : BitVec 23) :
    value32 (assemble32 g 255#8 F) = if F = 0#23 then .infinity (g == 1#1) else .nan := by
  simp [value32]

theorem value64_assemble64_infinity (g : BitVec 1) (G : BitVec 52) :
    value64 (assemble64 g 0x7FF#11 G) = if G = 0#52 then .infinity (g == 1#1) else .nan := by
  simp [value64]

theorem value32_assemble32_normal (g : BitVec 1) {X : BitVec 8} (F : BitVec 23) (low : X ≠ 0#8) (high : X ≠ 255#8) :
    value32 (assemble32 g X F) = .number (signFactor g * (1 + F.toNat / 2 ^ 23) * 2 ^ ((X.toNat : Int) - 127)) := by
  simp [value32, low, high]

theorem widen_assemble32_normal (g : BitVec 1) {X : BitVec 8} (F : BitVec 23) (low : X ≠ 0#8) (high : X ≠ 255#8) :
    widen (assemble32 g X F) = assemble64 g (BitVec.ofNat 11 (X.toNat + 896)) (F ++ 0#29) := by
  simp [widen_assemble32, low, high]

theorem widen_assemble32_subnormal (g : BitVec 1) {F : BitVec 23} (hF : F ≠ 0#23) :
    widen (assemble32 g 0#8 F) =
      assemble64 g (BitVec.ofNat 11 (topBit F 23 + 874))
        (BitVec.ofNat 52 ((F.toNat - 2 ^ topBit F 23) * 2 ^ (52 - topBit F 23))) := by
  simp [widen_assemble32, hF]

theorem widen_assemble32_all_ones (g : BitVec 1) (F : BitVec 23) :
    widen (assemble32 g 255#8 F) = assemble64 g 0x7FF#11 (F ++ 0#29) := by
  simp [widen_assemble32]

theorem append_zeros_eq_zero_iff (F : BitVec 23) : (F ++ 0#29 : BitVec 52) = 0#52 ↔ F = 0#23 := by
  constructor
  · intro zero
    calc
      F = (F ++ 0#29 : BitVec 52).extractLsb' 29 23 := BitVec.extractLsb'_append_eq_left.symm
      _ = 0#23 := by rw [zero]; decide
  · rintro rfl
    decide

/-- A normal pattern keeps its fraction, and its exponent is biased anew. -/
theorem value64_widen_normal (g : BitVec 1) {X : BitVec 8} (F : BitVec 23) (low : X ≠ 0#8) (high : X ≠ 255#8) :
    value64 (widen (assemble32 g X F)) = value32 (assemble32 g X F) := by
  have bound : X.toNat < 256 := X.isLt
  have field : (BitVec.ofNat 11 (X.toNat + 896)).toNat = X.toNat + 896 := Nat.mod_eq_of_lt (by omega)
  have unbiased : ((X.toNat + 896 : Nat) : Int) - 1023 = (X.toNat : Int) - 127 := by omega
  rw [widen_assemble32_normal g F low high, value32_assemble32_normal g F low high,
    value64_assemble64_normal _ _ (by omega) (by omega), widened_fraction, field, unbiased]

section LeadingOne

variable {f p : Nat} (top : p ≤ 52)
include top

/-- The bits below the leading 1 fit the 52 bits of a binary64 fraction. -/
theorem fraction_below_leading_one_lt (upper : f < 2 ^ (p + 1)) : (f - 2 ^ p) * 2 ^ (52 - p) < 2 ^ 52 :=
  calc
    _ < 2 ^ p * 2 ^ (52 - p) := Nat.mul_lt_mul_of_pos_right (by rw [Nat.pow_succ] at upper; omega) (by positivity)
    _ = 2 ^ 52 := by rw [← pow_add, Nat.add_sub_cancel' top]

/-- The leading 1 taken as the hidden bit, the number is a significand at that bit's place. -/
theorem significand_of_leading_one (lower : 2 ^ p ≤ f) :
    (1 + ((f - 2 ^ p) * 2 ^ (52 - p) : Nat) / 2 ^ 52 : Rat) = f / 2 ^ p := by
  have point : (2 : Rat) ^ 52 = 2 ^ p * 2 ^ (52 - p) := by rw [← pow_add, Nat.add_sub_cancel' top]
  rw [point]
  push_cast [Nat.cast_sub lower]
  field_simp
  ring

end LeadingOne

/-- A subnormal's leading 1 becomes the hidden bit, and the bits below it the fraction. -/
theorem value64_widen_subnormal (g : BitVec 1) {F : BitVec 23} (hF : F ≠ 0#23) :
    value64 (widen (assemble32 g 0#8 F)) = value32 (assemble32 g 0#8 F) := by
  have nonzero : F.toNat ≠ 0 := fun zero => hF (BitVec.eq_of_toNat_eq (by simpa using zero))
  obtain ⟨top, lower, upper⟩ := topBit_bounds F 23 F.isLt nonzero
  rw [widen_assemble32_subnormal g hF, value32_assemble32_zero_exponent, if_neg hF]
  generalize topBit F 23 = p at top lower upper ⊢
  have places : p ≤ 52 := by omega
  have exponent : (BitVec.ofNat 11 (p + 874)).toNat = p + 874 := by
    rw [BitVec.toNat_ofNat]
    exact Nat.mod_eq_of_lt (by omega)
  have fraction : (BitVec.ofNat 52 ((F.toNat - 2 ^ p) * 2 ^ (52 - p))).toNat = (F.toNat - 2 ^ p) * 2 ^ (52 - p) := by
    rw [BitVec.toNat_ofNat]
    exact Nat.mod_eq_of_lt (fraction_below_leading_one_lt places upper)
  have rebased : (2 : Rat) ^ (((p + 874 : Nat) : Int) - 1023) = 2 ^ p * 2 ^ (-149 : Int) := by
    rw [show (((p + 874 : Nat) : Int) - 1023) = (p : Int) + (-149) by omega, zpow_add₀ two_ne_zero, zpow_natCast]
  rw [value64_assemble64_normal _ _ (by omega) (by omega), exponent, fraction, significand_of_leading_one places lower,
    rebased]
  refine congrArg FloatValue.number ?_
  field_simp

theorem value64_widen (x : Single) : value64 (widen x) = value32 x := by
  rw [← assemble32_fields x]
  generalize x.extractLsb' 31 1 = g, x.extractLsb' 23 8 = X, x.extractLsb' 0 23 = F
  by_cases zero : X = 0#8
  · subst zero
    by_cases hF : F = 0#23
    · rw [hF, widen_zero, value64_assemble64_zero, value32_assemble32_zero_exponent, if_pos rfl]
    · exact value64_widen_subnormal g hF
  · by_cases ones : X = 255#8
    · simp only [ones, widen_assemble32_all_ones, value64_assemble64_infinity, value32_assemble32_infinity,
        append_zeros_eq_zero_iff]
    · exact value64_widen_normal g F zero ones

/-- Settles O15: by the classes of the exponent field. -/
theorem wideningIsExact : Obligations.WideningIsExact := value64_widen

/-! ## The value of `DECODE_ONE` -/

theorem decodeOneResponse_ieee64 (w : Word) :
    (decodeOneResponse w).ieee64 = widen (decodeOneResponse w).ieee32 := by
  rw [decodeOneResponse_eq]

theorem value64_decodeOne (w : Word) :
    value64 (decodeOneResponse w).ieee64 = value32 (decodeOneResponse w).ieee32 := by
  rw [decodeOneResponse_ieee64, value64_widen]

theorem value64_decodeDirect {w : Word} (h : mantissaOf w ≠ 0#24) :
    value64 (decodeDirectResponse w).ieee64 = .number (ibmValue w) := by
  obtain ⟨exact_value, _⟩ := directValueIsExact w
  rw [exact_value, ibmFloat, isTrueZero, beq_false_of_ne h]
  rfl

/-- In the normal range of binary32 the widened pattern is that of `DECODE_DIRECT`: the two biases differ by 896. -/
theorem decodeOne_ieee64_eq_direct {w : Word} (h : mantissaOf w ≠ 0#24) (low : 1 ≤ wordExponent w)
    (high : wordExponent w ≤ 254) : (decodeOneResponse w).ieee64 = (decodeDirectResponse w).ieee64 := by
  obtain ⟨X, field, response⟩ := decodeOneResponse_in_range h (by omega) high
  obtain ⟨Y, field64, _, _, pattern⟩ := directPattern_nonzero h
  have notZero : X ≠ 0#8 := by rintro rfl; rw [← field] at low; exact absurd low (by decide)
  have notOnes : X ≠ 255#8 := by rintro rfl; rw [← field] at high; exact absurd high (by decide)
  have biased : BitVec.ofNat 11 (X.toNat + 896) = Y := by
    rw [wordExponent_eq] at field
    rw [show X.toNat + 896 = Y.toNat by omega, BitVec.ofNat_toNat, BitVec.setWidth_eq]
  rw [response, decodeDirectResponse_of_pattern pattern]
  exact (widen_assemble32_normal _ _ notZero notOnes).trans (by rw [biased])

/-- The pattern of `DECODE_ONE` has the word's value exactly in the normal range: below it the value is another number
or a zero (R74, R77), and above it an infinity (R75). -/
theorem value32_decodeOne_iff {w : Word} (h : mantissaOf w ≠ 0#24) :
    value32 (decodeOneResponse w).ieee32 = .number (ibmValue w) ↔ 1 ≤ wordExponent w ∧ wordExponent w ≤ 254 := by
  constructor
  · intro exact_value
    by_contra outside
    obtain neg | zero | overflow : wordExponent w < 0 ∨ wordExponent w = 0 ∨ 255 ≤ wordExponent w := by omega
    · rw [decodeOneResponse_underflow h neg, append_zero31, value32_assemble32_zero_exponent, if_pos rfl] at exact_value
      cases exact_value
    · obtain ⟨_, _, _, _, differs⟩ := zeroExponentPattern w h zero
      exact differs exact_value
    · rw [decodeOneResponse_overflow h overflow] at exact_value
      change value32 (assemble32 _ 255#8 0#23) = _ at exact_value
      rw [value32_assemble32_infinity, if_pos rfl] at exact_value
      cases exact_value
  · rintro ⟨low, high⟩
    rw [← value64_decodeOne, decodeOne_ieee64_eq_direct h low high, value64_decodeDirect h]

/-- Settles O21: in the normal range the binary64 pattern is that of `DECODE_DIRECT`, which is exact, and widening keeps
the value. -/
theorem oneValueIsExact : Obligations.OneValueIsExact := by
  unfold Obligations.OneValueIsExact
  intro w h low high
  have value : value32 (decodeOneResponse w).ieee32 = .number (ibmValue w) := (value32_decodeOne_iff h).mpr ⟨low, high⟩
  exact ⟨value, decodeOne_ieee64_eq_direct h low high, (value64_decodeOne w).trans value⟩

/-- Settles O26: outside the normal range the two patterns differ because their values do. -/
theorem oneAgainstDirect : Obligations.OneAgainstDirect := by
  unfold Obligations.OneAgainstDirect
  refine fun w => ⟨fun h => ⟨fun agree => ?range, fun ⟨low, high⟩ => decodeOne_ieee64_eq_direct h low high⟩,
    fun h => ?zero⟩
  case range =>
    rw [← value32_decodeOne_iff h, ← value64_decodeOne, agree, value64_decodeDirect h]
  case zero =>
    rw [decodeOneResponse_true_zero h, decodeDirectResponse_of_pattern (directPattern_true_zero h)]

end Sys2Proof.Machine
end

section
/-! PROOFS. The round trips through the encoder of R133: normal values come back truncated, and subnormals do not come
back. -/

namespace Sys2Proof.Machine

/-! ## Fields as numbers -/

/-- A pattern as a number: its exponent field above the 23 bits of its fraction, and its sign above both (R47). -/
theorem toNat_assemble32 (g : BitVec 1) (X : BitVec 8) (F : BitVec 23) :
    (assemble32 g X F).toNat = 2 ^ 31 * g.toNat + 2 ^ 23 * X.toNat + F.toNat := by
  have upper : (g ++ X).toNat = 2 ^ 8 * g.toNat + X.toNat := by
    rw [BitVec.toNat_append, ← Nat.shiftLeft_add_eq_or_of_lt X.isLt, Nat.shiftLeft_eq, Nat.mul_comm]
  rw [assemble32, BitVec.toNat_append, ← Nat.shiftLeft_add_eq_or_of_lt F.isLt, Nat.shiftLeft_eq, upper]
  omega

section WordFields

variable (s : BitVec 1) (E : BitVec 7) (M : BitVec 24)

theorem signOf_ibmWord : signOf (ibmWord s E M) = s :=
  (BitVec.extractLsb'_append_eq_of_le (by decide)).trans BitVec.extractLsb'_append_eq_left

theorem exponentOf_ibmWord : exponentOf (ibmWord s E M) = E :=
  (BitVec.extractLsb'_append_eq_of_le (Nat.le_refl 24)).trans BitVec.extractLsb'_append_eq_right

theorem mantissaOf_ibmWord : mantissaOf (ibmWord s E M) = M := BitVec.extractLsb'_append_eq_right

end WordFields

/-! ## Clearing the low bits -/

theorem toNat_clearLow (x : Single) (k : Nat) : (clearLow x k).toNat = x.toNat / 2 ^ k * 2 ^ k := by
  rw [clearLow, BitVec.toNat_shiftLeft, BitVec.toNat_ushiftRight, Nat.shiftLeft_eq, Nat.shiftRight_eq_div_pow]
  exact Nat.mod_eq_of_lt ((Nat.div_mul_le_self _ _).trans_lt x.isLt)

/-- Clearing the low bits of a fraction leaves the fields above it as they are. -/
theorem truncate_below_field {k : Nat} (hk : k ≤ 23) (upper F : Nat) :
    (2 ^ 23 * upper + F) / 2 ^ k * 2 ^ k = 2 ^ 23 * upper + F / 2 ^ k * 2 ^ k := by
  have place : 2 ^ 23 * upper = 2 ^ k * (2 ^ (23 - k) * upper) := by
    rw [← Nat.mul_assoc, ← pow_add, Nat.add_sub_cancel' hk]
  rw [place, Nat.mul_add_div (by positivity), Nat.add_mul, Nat.mul_comm (2 ^ k)]

theorem sub_clearLow_lt (x : Single) (k : Nat) : x.toNat - (clearLow x k).toNat < 2 ^ k := by
  have cleared := Nat.div_add_mod' x.toNat (2 ^ k)
  have low : x.toNat % 2 ^ k < 2 ^ k := Nat.mod_lt _ (by positivity)
  rw [toNat_clearLow]
  omega

theorem clearLow_eq_self {x : Single} {k : Nat} (hk : k ≤ 31) (h : x &&& BitVec.ofNat 32 (2 ^ k - 1) = 0#32) :
    clearLow x k = x := by
  have mask : (BitVec.ofNat 32 (2 ^ k - 1)).toNat = 2 ^ k - 1 := by
    have : 2 ^ k ≤ 2 ^ 31 := Nat.pow_le_pow_right (by decide) hk
    rw [BitVec.toNat_ofNat]
    omega
  have low : x.toNat % 2 ^ k = 0 := by
    simpa [BitVec.toNat_and, mask, Nat.and_two_pow_sub_one_eq_mod] using congrArg BitVec.toNat h
  refine BitVec.eq_of_toNat_eq ?_
  rw [toNat_clearLow, Nat.div_mul_cancel (Nat.dvd_of_mod_eq_zero low)]

/-! ## The encoder -/

/-- The exponent field is split into a power of 16 and a shift (R133). -/
theorem encodeQuotient_add_encodeShift (x : Single) :
    4 * encodeQuotient x + (encodeShift x : Int) = ((x.extractLsb' 23 8).toNat : Int) - 127 ∧ encodeShift x ≤ 3 := by
  have quotient : encodeQuotient x = (((x.extractLsb' 23 8).toNat : Int) - 127) / 4 := rfl
  have shift : encodeShift x = ((((x.extractLsb' 23 8).toNat : Int) - 127) % 4).toNat := rfl
  omega

/-- A 24-bit significand without its low `k ≤ 3` bits is a mantissa whose shift count is `k`. -/
theorem lzc24_of_truncated {M : BitVec 24} {a k : Nat} (hM : M.toNat = a / 2 ^ k) (low : 2 ^ 23 ≤ a) (high : a < 2 ^ 24)
    (hk : k ≤ 3) : M ≠ 0#24 ∧ lzc24 M = k := by
  have lower : 2 ^ (23 - k) ≤ M.toNat := by
    rw [hM, Nat.le_div_iff_mul_le (by positivity), ← pow_add, Nat.sub_add_cancel (by omega)]
    exact low
  have upper : M.toNat < 2 ^ (24 - k) := by
    rw [hM, Nat.div_lt_iff_lt_mul (by positivity), ← pow_add, Nat.sub_add_cancel (by omega)]
    exact high
  have nonzero : M ≠ 0#24 := by
    rintro rfl
    exact absurd lower (Nat.not_le_of_lt (Nat.two_pow_pos _))
  exact ⟨nonzero, (lzc24_eq_iff nonzero (by omega)).mpr ⟨lower, upper⟩⟩

section Encoder

variable {x : Single} (low : 1 ≤ (x.extractLsb' 23 8).toNat) (high : (x.extractLsb' 23 8).toNat ≤ 254)

theorem signOf_encodeNormal : signOf (encodeNormal x) = x.extractLsb' 31 1 := signOf_ibmWord _ _ _

/-- The encoder's mantissa is the significand without the bits that the shift does not make room for. -/
theorem mantissaOf_encodeNormal :
    (mantissaOf (encodeNormal x)).toNat = (2 ^ 23 + (x.extractLsb' 0 23).toNat) / 2 ^ (3 - encodeShift x) := by
  obtain ⟨_, few⟩ := encodeQuotient_add_encodeShift x
  have bound : (x.extractLsb' 0 23).toNat < 2 ^ 23 := (x.extractLsb' 0 23).isLt
  have eight : 2 ^ 3 = 2 ^ (3 - encodeShift x) * 2 ^ encodeShift x := by rw [← pow_add, Nat.sub_add_cancel few]
  have fits : (2 ^ 23 + (x.extractLsb' 0 23).toNat) / 2 ^ (3 - encodeShift x) < 2 ^ 24 :=
    (Nat.div_le_self _ _).trans_lt (by omega)
  rw [encodeNormal, mantissaOf_ibmWord, BitVec.toNat_ofNat, Nat.shiftRight_eq_div_pow, Nat.shiftLeft_eq, eight,
    Nat.mul_div_mul_right _ _ (by positivity), Nat.mod_eq_of_lt fits]

theorem lzc24_encodeNormal :
    mantissaOf (encodeNormal x) ≠ 0#24 ∧ lzc24 (mantissaOf (encodeNormal x)) = 3 - encodeShift x := by
  have bound : (x.extractLsb' 0 23).toNat < 2 ^ 23 := (x.extractLsb' 0 23).isLt
  exact lzc24_of_truncated mantissaOf_encodeNormal (by omega) (by omega) (by omega)

include low high

theorem exponentOf_encodeNormal : ((exponentOf (encodeNormal x)).toNat : Int) = encodeQuotient x + 65 := by
  obtain ⟨split, _⟩ := encodeQuotient_add_encodeShift x
  rw [encodeNormal, exponentOf_ibmWord, BitVec.toNat_ofInt]
  omega

/-- The encoded word's computed exponent is the exponent field it was made from. -/
theorem wordExponent_encodeNormal : wordExponent (encodeNormal x) = ((x.extractLsb' 23 8).toNat : Int) := by
  obtain ⟨split, few⟩ := encodeQuotient_add_encodeShift x
  obtain ⟨_, places⟩ := lzc24_encodeNormal (x := x)
  rw [wordExponent_eq, exponentOf_encodeNormal low high, places]
  omega

/-- Decoding the encoded word gives the pattern without the bits that the encoder cut off. -/
theorem decodeOne_encodeNormal :
    (decodeOneResponse (encodeNormal x)).ovf = false ∧
    (decodeOneResponse (encodeNormal x)).ieee32 = clearLow x (3 - encodeShift x) := by
  obtain ⟨nonzero, places⟩ := lzc24_encodeNormal (x := x)
  have exponent := wordExponent_encodeNormal low high
  obtain ⟨X, field, response⟩ := decodeOneResponse_in_range nonzero (by omega) (by omega)
  obtain rfl : X = x.extractLsb' 23 8 := BitVec.eq_of_toNat_eq (by omega)
  have cut : (wordFraction (encodeNormal x)).toNat =
      (x.extractLsb' 0 23).toNat / 2 ^ (3 - encodeShift x) * 2 ^ (3 - encodeShift x) := by
    have significand : 2 ^ 23 + (wordFraction (encodeNormal x)).toNat = _ := fraction_toNat nonzero
    have hidden := truncate_below_field (k := 3 - encodeShift x) (by omega) 1 (x.extractLsb' 0 23).toNat
    rw [mantissaOf_encodeNormal, places] at significand
    rw [Nat.mul_one] at hidden
    omega
  have number : x.toNat = _ := (congrArg BitVec.toNat (assemble32_fields x)).symm.trans (toNat_assemble32 _ _ _)
  have upper : 2 ^ 31 * (x.extractLsb' 31 1).toNat + 2 ^ 23 * (x.extractLsb' 23 8).toNat =
      2 ^ 23 * (2 ^ 8 * (x.extractLsb' 31 1).toNat + (x.extractLsb' 23 8).toNat) := by omega
  rw [response, signOf_encodeNormal]
  refine ⟨rfl, BitVec.eq_of_toNat_eq ?_⟩
  rw [toNat_assemble32, toNat_clearLow, number, upper, truncate_below_field (by omega), cut]

end Encoder

/-- Settles O27: the encoded word's exponent is the pattern's own, in the normal range, and its mantissa is the
pattern's significand without the bits that clearing clears. -/
theorem roundTripOfNormals : Obligations.RoundTripOfNormals := by
  unfold Obligations.RoundTripOfNormals
  refine ⟨fun x low high => ?normals, ?plus, ?minus⟩
  case normals =>
    obtain ⟨split, few⟩ := encodeQuotient_add_encodeShift x
    obtain ⟨_, places⟩ := lzc24_encodeNormal (x := x)
    obtain ⟨finite, pattern⟩ := decodeOne_encodeNormal low high
    have exponent := exponentOf_encodeNormal low high
    exact ⟨by omega, by omega, few, places, wordExponent_encodeNormal low high, finite, pattern, sub_clearLow_lt x _,
      fun cleared => pattern.trans (clearLow_eq_self (by omega) cleared)⟩
  case plus => rw [decodeOneResponse_true_zero (by decide)]; decide
  case minus => rw [decodeOneResponse_true_zero (by decide)]; decide

/-! ## Subnormals -/

/-- The number of a subnormal pattern is nonzero and its magnitude less than that of every normal one. -/
theorem value32_subnormal {x : Single} (exponent : x.extractLsb' 23 8 = 0#8) (fraction : x.extractLsb' 0 23 ≠ 0#23) :
    ∃ g : BitVec 1, ∃ v : Rat, 0 < v ∧ v < 2 ^ (-126 : Int) ∧ value32 x = .number (signFactor g * v) := by
  refine ⟨x.extractLsb' 31 1, (x.extractLsb' 0 23).toNat * 2 ^ (-149 : Int), ?positive, ?small, ?value⟩
  case positive =>
    have : (x.extractLsb' 0 23).toNat ≠ 0 := fun zero => fraction (BitVec.eq_of_toNat_eq (by simpa using zero))
    positivity
  case small =>
    have bound : ((x.extractLsb' 0 23).toNat : Rat) < 2 ^ 23 := by exact_mod_cast (x.extractLsb' 0 23).isLt
    calc
      _ < (2 : Rat) ^ 23 * 2 ^ (-149 : Int) := by gcongr
      _ = 2 ^ (-126 : Int) := by norm_num
  case value =>
    have pattern := value32_assemble32_zero_exponent (x.extractLsb' 31 1) (x.extractLsb' 0 23)
    rwa [← exponent, assemble32_fields, if_neg fraction, mul_assoc] at pattern

theorem abs_signFactor (g : BitVec 1) : |signFactor g| = 1 := by
  rw [signFactor]
  split <;> norm_num

/-- The magnitude of a nonzero word is at least the power of two of its exponent. -/
theorem le_abs_ibmValue {w : Word} (h : mantissaOf w ≠ 0#24) : (2 : Rat) ^ (wordExponent w - 127) ≤ |ibmValue w| := by
  have unbiased : 4 * ((exponentOf w).toNat : Int) - 257 - (lzc24 (mantissaOf w) : Int) = wordExponent w - 127 := by
    rw [wordExponent_eq]
    omega
  rw [ibmValue_eq h, unbiased, mul_assoc, abs_mul, abs_signFactor, one_mul, abs_of_pos (by positivity)]
  have hidden : (0 : Rat) ≤ (wordFraction w).toNat / 2 ^ 23 := by positivity
  exact le_mul_of_one_le_left (by positivity) (by linarith)

theorem ibmValue_true_zero {w : Word} (h : mantissaOf w = 0#24) : ibmValue w = 0 := by
  simp [ibmValue, h]

/-- Settles O28: a word of a subnormal's value has an exponent below the normal range, in which alone its pattern would
have its value. -/
theorem subnormalsDoNotRoundTrip : Obligations.SubnormalsDoNotRoundTrip := by
  unfold Obligations.SubnormalsDoNotRoundTrip
  intro x w exponent fraction equal
  obtain ⟨g, v, positive, small, value⟩ := value32_subnormal exponent fraction
  have word : ibmValue w = signFactor g * v := FloatValue.number.inj (equal.symm.trans value)
  have magnitude : |ibmValue w| = v := by rw [word, abs_mul, abs_signFactor, one_mul, abs_of_pos positive]
  have nonzero : mantissaOf w ≠ 0#24 := fun zero => by
    rw [ibmValue_true_zero zero, abs_zero] at magnitude
    exact positive.ne magnitude
  have low : wordExponent w ≤ 0 := by
    have below : (2 : Rat) ^ (wordExponent w - 127) < 2 ^ (-126 : Int) :=
      (le_abs_ibmValue nonzero).trans_lt (magnitude ▸ small)
    have := (zpow_lt_zpow_iff_right₀ one_lt_two).mp below
    omega
  refine ⟨nonzero, low, ?finite, fun same => ?differs⟩
  case finite =>
    rw [decodeOneResponse_ovf, Bool.eq_false_iff]
    intro raised
    have := ((conv32_overflow_iff w).mp raised).2
    omega
  case differs =>
    have := ((value32_decodeOne_iff nonzero).mp (same ▸ equal)).1
    omega

end Sys2Proof.Machine
end

section
/-! PROOFS. The moves of the schedule, one lemma for each: the agents' steps (R20 to R22), the rising edge and its ports
(R27, R28, R128), and the moves before the first reset (R122). -/

namespace Sys2Proof.Machine

/-! ## The agents' steps -/

section Moves

variable {p : Params} {s : State} {ms : List Move} (hw : s.wasReset = true)
include hw

theorem stepWith_issue_full {r : Request} (hfull : p.depth ≤ s.occupancy) (hs : s.schedule = .issue r :: ms) :
    stepWith p s = .fault .issueNotEnabled := by
  rw [stepWith_takes hs, takeMove, afterReset_of_wasReset (s := s.advance) hw]
  exact issue_disabled hfull

theorem stepWith_convert_nothing (hp : s.pend = []) (hs : s.schedule = .convert :: ms) :
    stepWith p s = .fault .convertNotEnabled := by
  rw [stepWith_takes hs, takeMove, afterReset_of_wasReset (s := s.advance) hw]
  exact convert_nil hp

theorem stepWith_collect_nothing (hd : s.done = []) (hs : s.schedule = .collect :: ms) :
    stepWith p s = .fault .collectNotEnabled := by
  rw [stepWith_takes hs, takeMove, afterReset_of_wasReset (s := s.advance) hw]
  exact collect_nil hd

/-- At the schedule's end a pending request is converted (R21). -/
theorem stepWith_settle_convert {r : Request} {rest : List Request} (hs : s.schedule = []) (hp : s.pend = r :: rest) :
    stepWith p s =
      .next { s with pend := rest, done := s.done ++ [execRequest r], freeTick := s.freeTick + 1 } := by
  have pending : s.advance.pend.isEmpty = false := by simp [hp]
  have converts : convert s.advance = .next (s.advance.dropPend.respond (execRequest r)) :=
    convert_cons (rest := rest) hp
  rw [stepWith, hs]
  dsimp only
  rw [settle, afterReset_of_wasReset (s := s.advance) hw, pending, if_neg Bool.false_ne_true, converts]
  refine congrArg Host.Outcome.next ?_
  ext1 <;> simp [hp, hs]

/-- With nothing pending at the schedule's end the block idles (R118, R121). -/
theorem stepWith_settle_idle (hs : s.schedule = []) (hp : s.pend = []) :
    stepWith p s = .next { s with freeTick := s.freeTick + 1 } := by
  have nothing : s.advance.pend.isEmpty = true := by simp [hp]
  rw [stepWith, hs]
  dsimp only
  rw [settle, afterReset_of_wasReset (s := s.advance) hw, nothing, if_pos rfl]
  refine congrArg Host.Outcome.next ?_
  ext1 <;> simp [hs]

/-- An edge without reset is one transfer (R28). -/
theorem stepWith_edge {pins : Pins} {k : Nat} (hrst : pins.rst = false) (hs : s.schedule = .edge pins k :: ms) :
    stepWith p s =
      .next (s.advance.transfer (taken p pins s) k (if accepted p pins s then some pins.request else none)) := by
  rw [stepWith_takes hs]
  exact edge_completes p pins k s.advance hrst hw

end Moves

/-- Settles O29: with room the request is accepted, and without it Issue is not enabled. -/
theorem issueStep : Obligations.IssueStep := by
  unfold Obligations.IssueStep
  refine fun p s r ms hw hs => ⟨fun room => ?accepts, fun full => stepWith_issue_full hw full hs⟩
  case accepts =>
    rw [stepWith_issue hw room hs]
    refine congrArg Host.Outcome.next ?_
    ext1 <;> simp [hs]

/-- Settles O30: the response of the oldest request is that of the operation its mode selects. -/
theorem convertStep : Obligations.ConvertStep := by
  unfold Obligations.ConvertStep
  refine fun p s ms hw hs => ⟨fun r rest hp => ?converts, fun hp => stepWith_convert_nothing hw hp hs⟩
  case converts => rw [stepWith_convert hw hp hs, execRequest_eq]

/-- Settles O31: with a response done it is delivered, and with none Collect is not enabled. -/
theorem collectStep : Obligations.CollectStep := by
  unfold Obligations.CollectStep
  refine fun p s ms hw hs => ⟨fun r rest hd => ?delivers, fun hd => stepWith_collect_nothing hw hd hs⟩
  case delivers =>
    rw [stepWith_collect hw hd hs]
    refine congrArg Host.Outcome.next ?_
    ext1 <;> simp [hs, hd]

/-! ## The converted instruction -/

theorem decode_of_decodeNumber {v : BitVec 33} {i : Instr} (h : decodeNumber v.toNat = .ok i) : decode v = i :=
  Except.ok.inj ((decodeNumber_toNat v).symm.trans h)

/-- A request is converted by executing the instruction it decodes to (R21). -/
theorem exec_decoded {r : Request} {i : Instr} (h : decode r.pack = i) (s : State) :
    exec i s = .next { s with done := s.done ++ [execRequest r] } :=
  exec_of_instrResponse i (by rw [execRequest, h]) s

/-- The request that `withFetchWord` places decodes to the instruction that the decoder reads from the number. -/
theorem decode_requestOfTableWord {nbits w : Nat} {i : Instr} (h : decodeTableWord nbits w = some i) :
    decode (requestOfTableWord nbits w).pack = i := by
  rw [requestOfTableWord, pack_unpack]
  rw [decodeTableWord, decodeNumber] at h
  split at h
  · exact Option.some.inj h
  · cases h

/-- Settles O32: each of the four steps takes the oldest request and appends the response of its instruction, which is
what executing that instruction does. -/
theorem stepRunsDecodedInstruction : Obligations.StepRunsDecodedInstruction := by
  unfold Obligations.StepRunsDecodedInstruction
  constructor
  · intro s r rest i hw hp hdecode _
    have executes := exec_decoded (decode_of_decodeNumber hdecode)
    refine ⟨fun ms hs => ?scheduled, fun hs => ?settled, fun m w ms hs => ?edge⟩
    case scheduled => rw [executes]; exact stepWith_convert hw hp hs
    case settled => rw [executes]; exact stepWith_settle_convert hw hs hp
    case edge =>
      have not_taken : taken Config.params ⟨false, false, m, w, false⟩ s = false := rfl
      have not_accepted : accepted Config.params ⟨false, false, m, w, false⟩ s = false := rfl
      rw [executes, step, stepWith_edge hw rfl hs, not_taken, not_accepted]
      refine congrArg Host.Outcome.next ?_
      ext1 <;> simp [hp, hs]
  · intro s nbits w i hdecode
    rw [exec_decoded (decode_requestOfTableWord hdecode)]
    exact stepWith_convert (s := s.withFetchWord nbits w) rfl rfl rfl

/-! ## Before the first reset -/

theorem afterReset_of_not_wasReset {s : State} (hw : s.wasReset = false) (o : Result) :
    afterReset s o = .refused .beforeFirstReset := by
  rw [afterReset, hw]
  rfl

/-- Settles O40: the schedule's end and every move but a reset edge ask first whether a reset has happened. -/
theorem beforeFirstReset : Obligations.BeforeFirstReset := by
  unfold Obligations.BeforeFirstReset
  intro p s hw noReset
  have refused (o : Result) : afterReset s.advance o = .refused .beforeFirstReset := afterReset_of_not_wasReset hw o
  cases hs : s.schedule with
  | nil =>
    rw [stepWith, hs]
    exact refused _
  | cons m ms =>
    rw [stepWith_takes hs]
    cases m with
    | issue r => exact refused _
    | convert => exact refused _
    | collect => exact refused _
    | edge pins k =>
      have started : s.advance.wasReset = false := hw
      rw [takeMove, edge, noReset pins k ms hs, started]
      rfl

/-! ## The ports and the edge -/

/-- Outside reset the data ports show the oldest response. -/
theorem ports_show_head (p : Params) {s : State} {r : Response} {rest : List Response} (hd : s.done = r :: rest) :
    (ports p false s).rspOvf = r.ovf ∧ (ports p false s).rspIeee32 = r.ieee32 ∧
    (ports p false s).rspIeee64 = r.ieee64 := by
  rw [ports, hd]
  exact ⟨rfl, rfl, rfl⟩

/-- Settles O35: the data ports show what is at the head of `done`, and free values in reset and where there is none. -/
theorem outputPorts : Obligations.OutputPorts := by
  unfold Obligations.OutputPorts
  intro p rst s
  refine ⟨by simp, by simp, fun r rest hrst hd => hrst ▸ ports_show_head p hd, fun invalid => ?idle⟩
  case idle =>
    cases rst with
    | true => exact ⟨rfl, rfl, rfl⟩
    | false =>
      have nothing : s.done = [] := by simpa using invalid
      rw [ports, nothing]
      exact ⟨rfl, rfl, rfl⟩

/-- Settles O33: an edge without reset is one transfer. -/
theorem edgeTransfers : Obligations.EdgeTransfers := by
  unfold Obligations.EdgeTransfers
  intro p s pins k ms hw hs hrst take accept r
  have taking : taken p pins s = take := by rw [taken, hrst]
  have accepting : accepted p pins s = accept := by rw [accepted, hrst]
  have request : (if accept then some pins.request else none).toList = if accept then [r] else [] :=
    apply_ite Option.toList _ _ _
  rw [stepWith_edge hw hrst hs, taking, accepting]
  refine congrArg Host.Outcome.next ?_
  ext1 <;> simp [request, hs, List.take_one]

/-- Settles O36: an edge that takes no response appends to `done`, whose head is what the ports show. -/
theorem responseStaysStable : Obligations.ResponseStaysStable := by
  unfold Obligations.ResponseStaysStable
  intro p s pins k ms hw hs hrst notReady valid
  have not_taken : taken p pins s = false := by rw [taken, notReady, Bool.false_and]
  obtain ⟨r, rest, hd⟩ : ∃ r rest, s.done = r :: rest := List.exists_cons_of_ne_nil (by simpa using valid)
  refine ⟨_, stepWith_edge hw hrst hs, ?_⟩
  rw [not_taken]
  generalize (if accepted p pins s then some pins.request else none) = acc
  have head : (s.advance.transfer false k acc).done = r :: (rest ++ (s.pend.take k).map execRequest) := by simp [hd]
  obtain ⟨ovf, ieee32, ieee64⟩ := ports_show_head p hd
  obtain ⟨ovf', ieee32', ieee64'⟩ := ports_show_head p head
  exact ⟨by simp [hd], ovf'.trans ovf.symm, ieee32'.trans ieee32.symm, ieee64'.trans ieee64.symm⟩

/-! ## The order of an edge's parts -/

section Parts

variable {s : State}

theorem transfer_nothing : s.transfer false 0 none = s := by ext1 <;> simp

/-- Collecting last makes a transfer without a response taken one with it. -/
theorem collectIf_transfer {take : Bool} (h : take = true → s.done ≠ []) (k : Nat) (acc : Option Request) :
    collectIf take (s.transfer false k acc) = .next (s.transfer take k acc) := by
  cases take with
  | false => rfl
  | true =>
    obtain ⟨r, rest, hd⟩ := List.exists_cons_of_ne_nil (h rfl)
    have head : (s.transfer false k acc).done = r :: (rest ++ (s.pend.take k).map execRequest) := by simp [hd]
    rw [collectIf, if_pos rfl, collect_cons head]
    refine congrArg Host.Outcome.next ?_
    ext1 <;> simp [hd]

/-- Converting last converts requests that were pending first, also behind an accepted one. -/
theorem convertUpTo_transfer {k : Nat} (hk : k ≤ s.pend.length) (take : Bool) (acc : Option Request) :
    convertUpTo k (s.transfer take 0 acc) = .next (s.transfer take k acc) := by
  rw [convertUpTo_eq]
  refine congrArg Host.Outcome.next ?_
  ext1 <;> simp [List.take_append_of_le_length hk, List.drop_append_of_le_length hk]

/-- Issuing last finds room where there was room first, since neither collecting nor converting takes any. -/
theorem issueIf_transfer {accept : Bool} {depth : Nat} (h : accept = true → s.occupancy < depth) (take : Bool) (k : Nat)
    (r : Request) :
    issueIf accept depth r (s.transfer take k none) =
      .next (s.transfer take k (if accept then some r else none)) := by
  cases accept with
  | false => rfl
  | true =>
    have room : (s.transfer take k none).occupancy < depth := (occupancy_transfer_le s take k none).trans_lt (h rfl)
    rw [issueIf, if_pos rfl, issue_enabled room]
    refine congrArg Host.Outcome.next ?_
    ext1 <;> simp

end Parts

theorem perm_triple {α : Type} {l : List α} {a b c : α} (h : l.Perm [a, b, c]) :
    l = [a, b, c] ∨ l = [b, a, c] ∨ l = [b, c, a] ∨ l = [a, c, b] ∨ l = [c, a, b] ∨ l = [c, b, a] := by
  simpa [List.permutations'] using List.mem_permutations'.mpr h

/-- Settles O34: each part adds its own share to the transfer, whichever parts came before it. -/
theorem edgeOrderImmaterial : Obligations.EdgeOrderImmaterial := by
  unfold Obligations.EdgeOrderImmaterial
  intro p pins k s order hrst hw hk perm
  have collects := collectIf_transfer (s := s) fun h : taken p pins s = true => (taken_iff.mp h).2.2
  have converts := convertUpTo_transfer hk
  have issues := issueIf_transfer (s := s) fun h : accepted p pins s = true => (accepted_iff.mp h).2.2
  rw [edge_completes p pins k s hrst hw]
  conv_lhs => rw [← transfer_nothing (s := s)]
  obtain rfl | rfl | rfl | rfl | rfl | rfl := perm_triple perm
  all_goals simp only [inSequence, andThen_next, collects, converts, issues]

end Sys2Proof.Machine
end

section
/-! PROOFS. What runs keep and what they reach: legal responses (R53, R88), a full block (R101, R126), the transfers of
one step (R130), lost work (R123), pending requests (R21, R118) and batches (R96). -/

namespace Sys2Proof.Machine

/-! ## Legal responses -/

/-- A zero of either sign in both formats is legal. -/
theorem legalResponse_zeros (g g' : BitVec 1) : legalResponse ⟨false, g ++ 0#31, g' ++ 0#63⟩ := by
  rw [legalResponse, append_zero31, append_zero63]
  simp

theorem legalResponse_overflow (g : BitVec 1) :
    legalResponse ⟨true, g ++ 0xFF#8 ++ 0#23, g ++ 0x7FF#11 ++ 0#52⟩ := by
  obtain rfl | rfl := BitVec.eq_zero_or_eq_one g
  · exact Or.inl ⟨by decide, by decide⟩
  · exact Or.inr ⟨by decide, by decide⟩

/-- Widening fills the exponent field with ones only where it was full of them: it keeps the value, which would be an
infinity or no number (R80). -/
theorem widen_exponent_ne_all_ones (g : BitVec 1) {X : BitVec 8} (F : BitVec 23) (hX : X ≠ 255#8) :
    (widen (assemble32 g X F)).extractLsb' 52 11 ≠ 0x7FF#11 := by
  intro ones
  have value := value64_widen (assemble32 g X F)
  simp only [value64, value32, ones, assemble32_exponent, if_true, if_neg hX] at value
  split_ifs at value

theorem legalResponse_decodeOne (w : Word) : legalResponse (decodeOneResponse w) := by
  by_cases h : mantissaOf w = 0#24
  · rw [decodeOneResponse_true_zero h]
    exact legalResponse_zeros _ _
  obtain neg | overflow | ⟨low, high⟩ :
      wordExponent w < 0 ∨ 255 ≤ wordExponent w ∨ 0 ≤ wordExponent w ∧ wordExponent w ≤ 254 := by omega
  · rw [decodeOneResponse_underflow h neg]
    exact legalResponse_zeros _ _
  · rw [decodeOneResponse_overflow h overflow]
    exact legalResponse_overflow _
  · obtain ⟨X, field, response⟩ := decodeOneResponse_in_range h low high
    have finite : X ≠ 255#8 := by rintro rfl; rw [← field] at high; exact absurd high (by decide)
    rw [response]
    exact ⟨by rwa [assemble32_exponent], widen_exponent_ne_all_ones _ _ finite⟩

theorem legalResponse_decodeDirect (w : Word) : legalResponse (decodeDirectResponse w) := by
  by_cases h : mantissaOf w = 0#24
  · rw [decodeDirectResponse_of_pattern (directPattern_true_zero h)]
    exact legalResponse_zeros 0#1 _
  · obtain ⟨Y, _, _, high, pattern⟩ := directPattern_nonzero h
    have finite : Y ≠ 0x7FF#11 := by rintro rfl; exact absurd high (by decide)
    rw [decodeDirectResponse_of_pattern pattern]
    have zero : (0x00000000#32).extractLsb' 23 8 ≠ 0xFF#8 := by decide
    exact ⟨zero, by rwa [assemble64_exponent]⟩

theorem legalResponse_instrResponse (i : Instr) : legalResponse (instrResponse i) := by
  cases i with
  | decodeOne w => exact legalResponse_decodeOne w
  | decodeDirect w => exact legalResponse_decodeDirect w

theorem doneLegal_transfer {s : State} (hs : doneLegal s) (take : Bool) (k : Nat) (acc : Option Request) :
    doneLegal (s.transfer take k acc) := by
  intro r hr
  rw [State.transfer_done, List.mem_append] at hr
  obtain held | produced := hr
  · refine hs r ?_
    cases take with
    | false => exact held
    | true => exact List.mem_of_mem_tail held
  · obtain ⟨q, _, rfl⟩ := List.mem_map.mp produced
    exact legalResponse_instrResponse _

theorem stepWith_keeps_doneLegal (p : Params) (s t : State) (hs : doneLegal s) (h : stepWith p s = .next t) :
    doneLegal t := by
  obtain ⟨_, _, _, _, _, rfl⟩ | ⟨_, take, k, acc, _, _, rfl⟩ := stepWith_cases h
  · exact List.forall_mem_nil _
  · have advanced : doneLegal s.advance := hs
    exact doneLegal_transfer advanced take k acc

/-- Settles O45: the response of each operation is legal, and a step only adds responses of operations to `done`. -/
theorem heldResponsesStayLegal : Obligations.HeldResponsesStayLegal := by
  unfold Obligations.HeldResponsesStayLegal
  exact ⟨legalResponse_instrResponse, stepWith_keeps_doneLegal Config.params⟩

/-! ## Resets -/

/-- Empty queues and an empty record of the host meet all invariants. -/
theorem invariants_resetEdge (p : Params) (s : State) :
    inOrder s.resetEdge ∧ withinDepth p s.resetEdge ∧ doneLegal s.resetEdge :=
  ⟨inOrder_resetEdge s, Nat.zero_le _, List.forall_mem_nil _⟩

/-- Settles O42: with empty queues each invariant is about nothing. -/
theorem resetMeetsInvariants : Obligations.ResetMeetsInvariants := by
  unfold Obligations.ResetMeetsInvariants
  exact fun p _ => ⟨Nat.zero_le p.depth, rfl, List.forall_mem_nil _⟩

/-- A step whose schedule holds no reset edge is a transfer of at most what the handshakes allow. -/
theorem stepWith_transfers {p : Params} {s t : State} (hs : s.schedule.all noReset = true)
    (h : stepWith p s = .next t) : ∃ take k acc, t = s.advance.transfer take k acc := by
  obtain ⟨pins, k, ms, schedule, hrst, _⟩ | ⟨_, take, k, acc, _, _, ht⟩ := stepWith_cases h
  · simp [schedule, noReset, hrst] at hs
  · exact ⟨take, k, acc, ht⟩

/-- What was received before the last reset, along a schedule without another. -/
def keepsEarlier (earlier : List Response) (s : State) : Prop :=
  s.schedule.all noReset = true ∧ s.earlier = earlier

theorem all_tail {α : Type} {f : α → Bool} {l : List α} (h : l.all f = true) : l.tail.all f = true :=
  List.all_eq_true.mpr fun a ha => List.all_eq_true.mp h a (List.mem_of_mem_tail ha)

theorem stepWith_keeps_earlier (p : Params) (earlier : List Response) (s t : State) (hs : keepsEarlier earlier s)
    (h : stepWith p s = .next t) : keepsEarlier earlier t := by
  obtain ⟨schedule, held⟩ := hs
  obtain ⟨take, k, acc, rfl⟩ := stepWith_transfers schedule h
  exact ⟨all_tail schedule, held⟩

/-- Settles O41: the reset edge empties the queues, and from there on each step without reset keeps the order and the
earlier responses. -/
theorem workBeforeResetIsLost : Obligations.WorkBeforeResetIsLost := by
  unfold Obligations.WorkBeforeResetIsLost
  intro p s t u pins k n ms hs hrst noResets hstep hrun
  obtain rfl : s.advance.resetEdge = t := Host.Outcome.next.inj ((stepWith_reset_edge hs hrst).symm.trans hstep)
  obtain ⟨ordered, within, legal⟩ := invariants_resetEdge p s.advance
  have kept : keepsEarlier (s.earlier ++ s.collected) s.advance.resetEdge := ⟨by simpa [hs] using noResets, rfl⟩
  obtain ⟨_, earlier⟩ := runWith_keeps (stepWith_keeps_earlier p _) n _ u kept hrun
  exact ⟨ordered, within, legal, earlier, collected_isPrefix_of_inOrder (runWith_keeps_inOrder ordered hrun)⟩

/-! ## A full block -/

/-- Converting moves entries from one queue to the other (R21). -/
theorem occupancy_transfer_converts (s : State) (k : Nat) : (s.transfer false k none).occupancy = s.occupancy := by
  simp only [State.occupancy, State.transfer_pend, State.transfer_done, Option.toList_none, List.append_nil,
    Bool.false_eq_true, if_false, List.length_append, List.length_map, List.length_take, List.length_drop]
  omega

/-- A full block whose host never collects, with what the host has issued and collected. -/
def staysFull (p : Params) (issued : List Request) (collected : List Response) (s : State) : Prop :=
  full p s ∧ s.schedule.all neverCollects = true ∧ s.issued = issued ∧ s.collected = collected

theorem stepWith_keeps_full (p : Params) (issued : List Request) (collected : List Response) (s t : State)
    (hs : staysFull p issued collected s) (h : stepWith p s = .next t) : staysFull p issued collected t := by
  obtain ⟨hfull, schedule, hissued, hcollected⟩ := hs
  obtain ⟨pins, k, ms, hms, hrst, _⟩ | ⟨_, take, k, acc, collects, room, rfl⟩ := stepWith_cases h
  · simp [hms, neverCollects, hrst] at schedule
  · obtain rfl : take = false := by
      by_contra taking
      obtain ⟨_, m, ms, hms, hm⟩ := collects (by simpa using taking)
      simp [hms, hm] at schedule
    obtain rfl : acc = none := by
      by_contra accepting
      exact absurd (room accepting) hfull.not_lt
    refine ⟨(occupancy_transfer_converts _ k).trans hfull, all_tail schedule, ?_, ?_⟩
    · simpa using hissued
    · simpa using hcollected

/-- Settles O50: no step of the run accepts or takes anything, so that the occupancy stays at `DEPTH`. -/
theorem fullBlockIsStuckForIssue : Obligations.FullBlockIsStuckForIssue := by
  unfold Obligations.FullBlockIsStuckForIssue
  intro p k s t hfull schedule hrun
  obtain ⟨full_t, _, issued, collected⟩ :=
    runWith_keeps (stepWith_keeps_full p s.issued s.collected) k s t ⟨hfull, schedule, rfl, rfl⟩ hrun
  exact ⟨full_t, issued, collected, fun r => issue_disabled full_t.ge⟩

/-- Settles O51: a step is a reset edge or one transfer. -/
theorem oneTransferEachWay : Obligations.OneTransferEachWay := by
  unfold Obligations.OneTransferEachWay
  intro s t h
  obtain ⟨_, _, _, _, _, rfl⟩ | ⟨_, take, k, acc, _, _, rfl⟩ := stepWith_cases h
  · exact Or.inl ⟨rfl, rfl, rfl, rfl, rfl⟩
  · refine Or.inr ⟨rfl, ⟨acc, rfl⟩, if take then s.done.head? else none, ?_⟩
    cases take with
    | false => simp
    | true => simp

/-! ## The schedule's end -/

/-- At the schedule's end as many steps as requests are pending convert them all (R21). -/
theorem runWith_settles_all {p : Params} {s : State} (hw : s.wasReset = true) (hs : s.schedule = []) :
    runWith p s.pend.length s =
      .next { s with
        pend := [], done := s.done ++ s.pend.map execRequest, freeTick := s.freeTick + s.pend.length } := by
  induction hp : s.pend generalizing s with
  | nil =>
    refine congrArg Host.Outcome.next ?_
    ext1 <;> simp [hp]
  | cons r rest ih =>
    rw [List.length_cons, runWith_of_step (stepWith_settle_convert hw hs hp)]
    refine (ih ?wasReset ?schedule ?pend).trans (congrArg Host.Outcome.next ?states)
    case wasReset => exact hw
    case schedule => exact hs
    case pend => rfl
    case states => ext1 <;> simp [Nat.add_comm, Nat.add_left_comm]

/-- Settles O49: one step at the schedule's end converts the oldest request, and with none pending it idles. -/
theorem pendingBecomesDone : Obligations.PendingBecomesDone := by
  unfold Obligations.PendingBecomesDone
  refine ⟨fun s hw hs => ?converts, fun s hw hs hp => stepWith_settle_idle hw hs hp⟩
  case converts =>
    rw [core_run_eq, runWith_settles_all hw hs]
    exact ⟨_, rfl, rfl, rfl, rfl, rfl⟩

/-! ## Batches -/

theorem map_execRequest_expandMany (ws : List Word) : (expandMany ws).map execRequest = ws.map decodeOneResponse := by
  simp [expandMany, execRequest_eq]

/-- Settles O52: a batch is the program of its words' requests. -/
theorem batchYieldsEveryResult : Obligations.BatchYieldsEveryResult := by
  unfold Obligations.BatchYieldsEveryResult
  intro p ws hp
  have count : ws.length = (expandMany ws).length := by simp [expandMany]
  rw [count, runWith_sequential (depth_pos_of_legal hp) (expandMany ws) rfl rfl rfl rfl, map_execRequest_expandMany]
  exact ⟨_, rfl, rfl, by simp [count], rfl, rfl, rfl⟩

/-! ## Several blocks -/

theorem systemStep_of_block {i : Nat} {blocks : List State} {s : State} (hi : blocks[i]? = some s) (p : Params) :
    systemStep p i blocks = andThen (stepWith p s) fun t => .next (blocks.set i t) := by
  rw [systemStep, hi]

/-- Settles O60: a step of the system is that of one block, whose next state is put in its place. -/
theorem blocksShareNothing : Obligations.BlocksShareNothing := by
  unfold Obligations.BlocksShareNothing
  constructor
  · intro p i blocks blocks' h
    cases hi : blocks[i]? with
    | none =>
      rw [systemStep, hi] at h
      obtain rfl := Host.Outcome.next.inj h
      exact ⟨rfl, fun _ _ => rfl⟩
    | some s =>
      rw [systemStep_of_block hi, andThen_eq_next] at h
      obtain ⟨t, _, ht⟩ := h
      obtain rfl := Host.Outcome.next.inj ht
      exact ⟨List.length_set, fun j hj => List.getElem?_set_ne hj.symm⟩
  · intro p i blocks s hi
    have inside : i < blocks.length := (List.getElem?_eq_some_iff.mp hi).1
    rw [systemStep_of_block hi]
    refine ⟨fun t h => ?_, fun f h => by rw [h, andThen_fault], fun r h => by rw [h, andThen_refused]⟩
    rw [h, andThen_next]
    exact ⟨_, rfl, List.getElem?_set_self inside⟩

end Sys2Proof.Machine
end

section
/-! PROOFS. Nothing but the two queues survives a step (R23): steps of two states with equal queues go the same way. -/

namespace Sys2Proof.Machine

/-- Two states that differ at most in the host's lists and the model's counter. -/
structure SameBlock (s u : State) : Prop where
  pend : s.pend = u.pend
  done : s.done = u.done
  wasReset : s.wasReset = u.wasReset
  schedule : s.schedule = u.schedule

/-- Two outcomes that go on to such states, or stop for the same reason. -/
inductive SameOutcome : Result → Result → Prop
  | next {s u : State} (h : SameBlock s u) : SameOutcome (.next s) (.next u)
  | fault (f : Fault) : SameOutcome (.fault f) (.fault f)
  | refused (r : Refusal) : SameOutcome (.refused r) (.refused r)

section Agreement

variable {s u : State}

theorem SameBlock.advance (h : SameBlock s u) : SameBlock s.advance u.advance :=
  ⟨h.pend, h.done, h.wasReset, congrArg List.tail h.schedule⟩

theorem SameBlock.occupancy (h : SameBlock s u) : s.occupancy = u.occupancy := by
  rw [State.occupancy, h.pend, h.done]

theorem SameBlock.transfer (h : SameBlock s u) (take : Bool) (k : Nat) (acc : Option Request) :
    SameBlock (s.transfer take k acc) (u.transfer take k acc) where
  pend := by simp [h.pend]
  done := by simp [h.pend, h.done]
  wasReset := h.wasReset
  schedule := h.schedule

theorem SameBlock.handshakes (h : SameBlock s u) (p : Params) (rst : Bool) :
    (ports p rst s).reqReady = (ports p rst u).reqReady ∧ (ports p rst s).rspValid = (ports p rst u).rspValid := by
  simp only [ports_reqReady, ports_rspValid, h.occupancy, h.done, and_self]

theorem sameOutcome_afterReset (h : SameBlock s u) {o o' : Result} (ho : SameOutcome o o') :
    SameOutcome (afterReset s o) (afterReset u o') := by
  rw [afterReset, afterReset, h.wasReset]
  split
  · exact ho
  · exact .refused _

theorem sameOutcome_issue (h : SameBlock s u) (depth : Nat) (r : Request) :
    SameOutcome (issue depth r s) (issue depth r u) := by
  rw [issue, issue, h.occupancy]
  split
  · exact .next ⟨congrArg (· ++ [r]) h.pend, h.done, h.wasReset, h.schedule⟩
  · exact .fault _

theorem sameOutcome_convert (h : SameBlock s u) : SameOutcome (convert s) (convert u) := by
  cases hp : u.pend with
  | nil =>
    rw [convert_nil hp, convert_nil (h.pend.trans hp)]
    exact .fault _
  | cons r rest =>
    rw [convert_cons hp, convert_cons (h.pend.trans hp)]
    exact .next ⟨congrArg List.tail h.pend, congrArg (· ++ [execRequest r]) h.done, h.wasReset, h.schedule⟩

theorem sameOutcome_collect (h : SameBlock s u) : SameOutcome (collect s) (collect u) := by
  cases hd : u.done with
  | nil =>
    rw [collect_nil hd, collect_nil (h.done.trans hd)]
    exact .fault _
  | cons r rest =>
    rw [collect_cons hd, collect_cons (h.done.trans hd)]
    exact .next ⟨h.pend, congrArg List.tail h.done, h.wasReset, h.schedule⟩

theorem sameOutcome_edge (h : SameBlock s u) (p : Params) (pins : Pins) (k : Nat) :
    SameOutcome (edge p pins k s) (edge p pins k u) := by
  cases hrst : pins.rst with
  | true =>
    rw [edge, edge, hrst]
    exact .next ⟨rfl, rfl, rfl, h.schedule⟩
  | false =>
    cases hw : u.wasReset with
    | false =>
      rw [edge, edge, hrst, hw, h.wasReset.trans hw]
      exact .refused _
    | true =>
      obtain ⟨ready, valid⟩ := h.handshakes p pins.rst
      have taking : taken p pins s = taken p pins u := by rw [taken, taken, valid]
      have accepting : accepted p pins s = accepted p pins u := by rw [accepted, accepted, ready]
      rw [edge_completes p pins k s hrst (h.wasReset.trans hw), edge_completes p pins k u hrst hw, taking, accepting]
      exact .next (h.transfer _ _ _)

theorem sameOutcome_settle (h : SameBlock s u) : SameOutcome (settle s) (settle u) := by
  refine sameOutcome_afterReset h ?_
  rw [h.pend]
  split
  · exact .next h
  · exact sameOutcome_convert h

theorem sameOutcome_takeMove (h : SameBlock s u) (p : Params) (m : Move) :
    SameOutcome (takeMove p m s) (takeMove p m u) := by
  cases m with
  | issue r => exact sameOutcome_afterReset h (sameOutcome_issue h p.depth r)
  | convert => exact sameOutcome_afterReset h (sameOutcome_convert h)
  | collect => exact sameOutcome_afterReset h (sameOutcome_collect h)
  | edge pins k => exact sameOutcome_edge h p pins k

theorem sameOutcome_stepWith (h : SameBlock s u) (p : Params) : SameOutcome (stepWith p s) (stepWith p u) := by
  rw [stepWith, stepWith, h.schedule]
  cases u.schedule with
  | nil => exact sameOutcome_settle h.advance
  | cons m ms => exact sameOutcome_takeMove h.advance p m

end Agreement

/-- Settles O48: each move reads only what the two states share. -/
theorem queuesAreAllThatSurvives : Obligations.QueuesAreAllThatSurvives := by
  unfold Obligations.QueuesAreAllThatSurvives
  intro p s u hpend hdone hreset hschedule
  have same : SameBlock s u := ⟨hpend, hdone, hreset, hschedule⟩
  have outcome := sameOutcome_stepWith same p
  rw [← and_assoc, ← and_assoc]
  refine ⟨?steps, same.handshakes p⟩
  generalize stepWith p s = o, stepWith p u = o' at outcome
  cases outcome with
  | next h => simp [h.pend, h.done, h.wasReset, h.schedule]
  | fault f => simp
  | refused r => simp

end Sys2Proof.Machine
end

section
/-! PROOFS. The block with its edges counted: it refines the block (R130) and respects `LATENCY` (R28). -/

namespace Sys2Proof.Machine

/-- Everything a timed edge can answer with a next state: an edge of the block, with the stamps brought up to date. -/
theorem timedEdge_cases {p : Params} {pins : Pins} {c : Nat} {t t' : Timed} (h : timedEdge p pins c t = .next t') :
    edge p pins (t.taken p.latency c) t.state = .next t'.state ∧ t'.now = t.now + 1 ∧
    t'.stamps = if pins.rst then [] else
      t.stamps.drop (t.taken p.latency c) ++ if accepted p pins t.state then [t.now] else [] := by
  obtain ⟨s', hs', ht'⟩ := (andThen_eq_next _).mp h
  obtain rfl := Host.Outcome.next.inj ht'
  exact ⟨hs', rfl, rfl⟩

theorem taken_le_converts (latency c : Nat) (t : Timed) : t.taken latency c ≤ c :=
  (Nat.min_le_left _ _).trans (Nat.min_le_left _ _)

theorem taken_le_ripe (latency c : Nat) (t : Timed) : t.taken latency c ≤ t.ripe latency :=
  (Nat.min_le_left _ _).trans (Nat.min_le_right _ _)

theorem taken_le_pending (latency c : Nat) (t : Timed) : t.taken latency c ≤ t.state.pend.length :=
  Nat.min_le_right _ _

/-- Settles O56: a timed edge is an edge with as many conversions as are ripe, at most those it was given. -/
theorem timedEdgeRefinesEdge : Obligations.TimedEdgeRefinesEdge := by
  unfold Obligations.TimedEdgeRefinesEdge
  intro p pins c t t' h
  obtain ⟨hedge, now, _⟩ := timedEdge_cases h
  exact ⟨now, t.taken p.latency c, taken_le_converts _ _ _, hedge⟩

/-- What an edge converts is ripe, since no more is converted than the oldest stamps allow (R28). -/
theorem stamps_of_converted {latency n : Nat} {t : Timed} (hn : n ≤ t.ripe latency) :
    ∀ a ∈ t.stamps.take n, a + latency ≤ t.now := by
  intro a ha
  have oldest : t.stamps.take n <+: t.stamps.takeWhile fun a => decide (a + latency ≤ t.now) :=
    List.prefix_of_prefix_length_le (List.take_prefix n _) (List.takeWhile_prefix _)
      ((List.length_take_le _ _).trans hn)
  simpa using List.mem_takeWhile_imp (oldest.subset ha)

/-- An edge's stamps follow its requests: both lose their oldest and gain what is accepted. -/
theorem length_drop_append_ite {α β : Type} {as : List α} {bs : List β} (h : as.length = bs.length) (n : Nat)
    (accept : Bool) (a : α) (b : β) :
    (as.drop n ++ if accept then [a] else []).length = (bs.drop n ++ if accept then [b] else []).length := by
  cases accept <;> simp [h]

/-- The stamp of this edge is lower than the next edge's number, and so are those that stay. -/
theorem stamps_stay_past {stamps : List Nat} {now : Nat} (past : ∀ a ∈ stamps, a < now) (n : Nat) (accept : Bool) :
    ∀ a ∈ stamps.drop n ++ (if accept then [now] else []), a < now + 1 := by
  intro a ha
  obtain old | new := List.mem_append.mp ha
  · exact (past a (List.mem_of_mem_drop old)).trans (Nat.lt_succ_self now)
  · cases accept with
    | false => cases new
    | true => exact List.mem_singleton.mp new ▸ Nat.lt_succ_self now

/-- Settles O57: an edge drops as many stamps as it converts requests, and adds one for a request it accepts. -/
theorem latencyIsRespected : Obligations.LatencyIsRespected := by
  unfold Obligations.LatencyIsRespected
  intro p pins c t t' each past h
  obtain ⟨hedge, now, stamps⟩ := timedEdge_cases h
  obtain ⟨hrst, hstate⟩ | ⟨hrst, _, hstate⟩ := edge_cases hedge
  · rw [hrst, if_pos rfl] at stamps
    rw [stamps, hstate]
    exact ⟨rfl, List.forall_mem_nil _, now, fun noReset => absurd (hrst.symm.trans noReset) (by decide)⟩
  · rw [hrst, if_neg Bool.false_ne_true] at stamps
    have pend : t'.state.pend =
        t.state.pend.drop (t.taken p.latency c) ++ if accepted p pins t.state then [pins.request] else [] := by
      rw [hstate, State.transfer_pend]
      exact congrArg _ (apply_ite Option.toList _ _ _)
    refine ⟨?each, ?past, now, fun _ =>
      ⟨_, hedge, taken_le_pending _ _ _, pend, stamps, stamps_of_converted (taken_le_ripe _ _ _)⟩⟩
    case each => rw [stamps, pend, length_drop_append_ite each]
    case past => rw [stamps, now]; exact stamps_stay_past past _ _

end Sys2Proof.Machine
end

section
/-! PROOFS. The lanes of the model's lane design, which cannot be observed (R37). -/

namespace Sys2Proof.Machine

/-- The requests that lane `j` takes from a list whose first request has the place `k`. -/
def laneFrom (lanes j k : Nat) (rs : List Request) : List Request :=
  ((rs.zipIdx k).filter fun ri => ri.2 % lanes == j).map (·.1)

theorem laneFrom_cons (lanes j k : Nat) (r : Request) (rs : List Request) :
    laneFrom lanes j k (r :: rs) =
      if k % lanes = j then r :: laneFrom lanes j (k + 1) rs else laneFrom lanes j (k + 1) rs := by
  rw [laneFrom, List.zipIdx_cons, List.filter_cons]
  simp only [beq_iff_eq]
  split <;> rfl

/-- A lane whose first request is `d` places away takes every request that is a multiple of `lanes` farther. -/
theorem laneFrom_getElem? {lanes j : Nat} (rs : List Request) {k d : Nat} (hd : d < lanes) (hj : (k + d) % lanes = j)
    (q : Nat) : (laneFrom lanes j k rs)[q]? = rs[q * lanes + d]? := by
  induction rs generalizing k d q with
  | nil => rfl
  | cons r rs ih =>
    rw [laneFrom_cons]
    cases d with
    | zero =>
      rw [if_pos (show k % lanes = j from hj)]
      cases q with
      | zero => simp
      | succ q =>
        have next : (k + 1 + (lanes - 1)) % lanes = j := by
          rw [Nat.add_assoc, Nat.add_sub_cancel' hd, Nat.add_mod_right]
          exact hj
        have place : (q + 1) * lanes + 0 = q * lanes + (lanes - 1) + 1 := by rw [Nat.succ_mul]; omega
        rw [List.getElem?_cons_succ, ih (by omega) next, place, List.getElem?_cons_succ]
    | succ d =>
      have other : k % lanes ≠ j := by
        rintro rfl
        have := (Nat.modEq_iff_dvd' (Nat.le_add_right k (d + 1))).mp hj.symm
        rw [Nat.add_sub_cancel_left] at this
        exact absurd (Nat.le_of_dvd (Nat.succ_pos d) this) (by omega)
      have next : (k + 1 + d) % lanes = j := by rw [← hj, Nat.add_assoc, Nat.add_comm 1]
      rw [if_neg other, ih (by omega) next]
      rfl

theorem laneOutputs_getElem? {lanes : Nat} (hl : 1 ≤ lanes) (rs : List Request) (i : Nat) :
    ((laneOutputs lanes rs)[i % lanes]?).bind (fun out => out[i / lanes]?) = (rs.map execRequest)[i]? := by
  have lane : i % lanes < lanes := Nat.mod_lt i hl
  have input : (laneInput lanes (i % lanes) rs)[i / lanes]? = rs[i / lanes * lanes + i % lanes]? :=
    laneFrom_getElem? rs lane (by rw [Nat.zero_add, Nat.mod_mod]) _
  rw [Nat.div_add_mod'] at input
  simp [laneOutputs, lane, input]

theorem filterMap_getElem?_range {α : Type} (l : List α) : (List.range l.length).filterMap (fun i => l[i]?) = l := by
  induction l with
  | nil => rfl
  | cons a l ih => simpa [List.range_succ_eq_map, List.filterMap_map, Function.comp_def] using ih

/-- Settles O55: each place finds its response in its own lane. -/
theorem lanesAreNotObservable : Obligations.LanesAreNotObservable := by
  unfold Obligations.LanesAreNotObservable
  intro lanes rs hl
  have responses := filterMap_getElem?_range (rs.map execRequest)
  rw [List.length_map] at responses
  simp only [laneConvert, laneDeliver, laneOutputs_getElem? hl]
  exact responses

end Sys2Proof.Machine
end

section
/-! PROOFS. Streaming (R129): with a request offered at every edge and every response taken, what the block holds before
edge `i` is known, and each edge moves it on by one. -/

namespace Sys2Proof.Machine

/-! ## What is in flight -/

/-- The elements of a list that entered before edge `i` and less than `span` edges ago, one entering at each edge. -/
def inFlight {α : Type} (span i : Nat) (l : List α) : List α := (l.take i).drop (i - span)

/-- How many elements edge `i` moves out: one, once the first has been in flight for `span` edges. -/
def leaving (span i : Nat) : Nat := i + 1 - span - (i - span)

section InFlight

variable {α : Type} {span i : Nat} (l : List α)

theorem length_inFlight : (inFlight span i l).length = min i l.length - (i - span) := by
  simp [inFlight]

theorem length_inFlight_le : (inFlight span i l).length ≤ span := by
  rw [length_inFlight]
  omega

theorem inFlight_map {β : Type} (f : α → β) : (inFlight span i l).map f = inFlight span i (l.map f) := by
  simp [inFlight]

/-- What went before and what is in flight is all that entered. -/
theorem take_append_inFlight : l.take (i - span) ++ inFlight span i l = l.take i := by
  have before : l.take (i - span) = (l.take i).take (i - span) := by
    rw [List.take_take, Nat.min_eq_left (Nat.sub_le i span)]
  rw [before, inFlight, List.take_append_drop]

theorem inFlight_eq_nil (h : l.length + span ≤ i) : inFlight span i l = [] :=
  List.eq_nil_of_length_eq_zero (by rw [length_inFlight]; omega)

theorem inFlight_zero : inFlight span 0 l = [] := by simp [inFlight]

variable (hspan : 1 ≤ span)
include hspan

/-- An edge drops what leaves and appends what enters. -/
theorem inFlight_succ : (inFlight span i l).drop (leaving span i) ++ l[i]?.toList = inFlight span (i + 1) l := by
  have together : i - span + leaving span i = i + 1 - span := by rw [leaving]; omega
  rw [inFlight, List.drop_drop, together, inFlight, List.take_add_one, List.drop_append]
  cases entering : l[i]? with
  | none => simp
  | some a =>
    have inside : i < l.length := (List.getElem?_eq_some_iff.mp entering).1
    have short : i + 1 - span - (l.take i).length = 0 := by rw [List.length_take]; omega
    rw [short, List.drop_zero]

/-- What leaves is what is in flight, for one edge, of what has left before the next edge. -/
theorem take_inFlight_leaving : (inFlight span i l).take (leaving span i) = inFlight 1 (i + 1 - span) l := by
  have together : i - span + leaving span i = i + 1 - span := by rw [leaving]; omega
  have before : i + 1 - span - 1 = i - span := by omega
  rw [inFlight, List.take_drop, together, List.take_take, Nat.min_eq_left (by omega), inFlight, before]

end InFlight

/-! ## The block before edge `i` -/

/-- The block before edge `i` of a stream: a request is pending for `latency` edges, and its response is done
for one. -/
def State.streamed (s : State) (rs : List Request) (latency i : Nat) : State :=
  { s with
    pend := inFlight latency i rs
    done := inFlight 1 (i - latency) (rs.map execRequest)
    issued := rs.take i
    collected := (rs.map execRequest).take (i - latency - 1) }

section Streamed

variable {p : Params} (s : State) (rs : List Request) {latency : Nat} (i : Nat)

theorem length_done_streamed_le : (s.streamed rs latency i).done.length ≤ 1 := length_inFlight_le _

theorem occupancy_streamed_le : (s.streamed rs latency i).occupancy ≤ latency + 1 :=
  Nat.add_le_add (length_inFlight_le rs) (length_inFlight_le _)

/-- Every offered request is accepted: the occupancy stays within `latency + 1`. -/
theorem accepted_streamed (hdepth : latency + 2 ≤ p.depth) :
    accepted p (offering rs[i]?) (s.streamed rs latency i) = rs[i]?.isSome := by
  have room : (s.streamed rs latency i).occupancy < p.depth :=
    (Nat.lt_succ_of_le (occupancy_streamed_le s rs i)).trans_le hdepth
  simp [accepted, room]

/-- The host takes whatever is done, which is one response at most. -/
theorem taken_streamed :
    taken p (offering rs[i]?) (s.streamed rs latency i) = !(s.streamed rs latency i).done.isEmpty := by
  simp [taken]

theorem take_all_of_length_le_one {l : List Response} (h : l.length ≤ 1) :
    (if !l.isEmpty then l.tail else l) = [] ∧ (if !l.isEmpty then l.head?.toList else []) = l := by
  cases l with
  | nil => simp
  | cons a l =>
    obtain rfl : l = [] := List.eq_nil_of_length_eq_zero (Nat.le_zero.mp (Nat.le_of_succ_le_succ h))
    simp

theorem request_offered : (if rs[i]?.isSome then some (offering rs[i]?).request else none) = rs[i]? := by
  cases rs[i]? <;> rfl

/-- An edge moves the stream on by one, where the converter converts the request whose time has come. -/
theorem edge_streamed (hw : s.wasReset = true) (hlatency : 1 ≤ latency) (hdepth : latency + 2 ≤ p.depth) {k : Nat}
    (hk : min k (inFlight latency i rs).length = min (leaving latency i) (inFlight latency i rs).length) :
    edge p (offering rs[i]?) k (s.streamed rs latency i) = .next (s.streamed rs latency (i + 1)) := by
  obtain ⟨rest, received⟩ := take_all_of_length_le_one (length_done_streamed_le s rs (latency := latency) i)
  have pend : (inFlight latency i rs).drop k ++ rs[i]?.toList = inFlight latency (i + 1) rs := by
    rw [List.drop_eq_drop_iff.mpr hk, inFlight_succ rs hlatency]
  have converted : ((inFlight latency i rs).take k).map execRequest =
      inFlight 1 (i + 1 - latency) (rs.map execRequest) := by
    rw [List.take_eq_take_iff.mpr hk, take_inFlight_leaving rs hlatency, inFlight_map]
  have collected : (rs.map execRequest).take (i - latency - 1) ++ inFlight 1 (i - latency) (rs.map execRequest) =
      (rs.map execRequest).take (i + 1 - latency - 1) := by
    rw [take_append_inFlight, show i + 1 - latency - 1 = i - latency by omega]
  rw [edge_completes p _ k (s.streamed rs latency i) rfl hw, accepted_streamed s rs i hdepth, request_offered,
    taken_streamed]
  refine congrArg Host.Outcome.next (State.ext_fields pend ?done rfl ?issued ?collected rfl rfl rfl)
  case done => rw [State.transfer_done, rest, List.nil_append]; exact converted
  case issued => exact List.take_add_one.symm
  case collected => rw [State.transfer_collected, received]; exact collected

/-- From `latency + 1` edges after the last request on, everything is collected. -/
theorem streamed_finished {i : Nat} (hi : rs.length + (latency + 1) ≤ i) :
    finished (s.streamed rs latency i) ∧ (s.streamed rs latency i).issued = rs ∧
    (s.streamed rs latency i).collected = rs.map execRequest := by
  have issued : (s.streamed rs latency i).issued = rs := List.take_of_length_le (by omega)
  have collected : (s.streamed rs latency i).collected = rs.map execRequest :=
    List.take_of_length_le (by rw [List.length_map]; omega)
  refine ⟨⟨inFlight_eq_nil rs (by omega), inFlight_eq_nil _ (by rw [List.length_map]; omega), ?_⟩, issued, collected⟩
  rw [issued, collected, List.length_map]

/-- Before the first edge nothing is in flight. -/
theorem streamed_zero (hp : s.pend = []) (hd : s.done = []) (hi : s.issued = []) (hc : s.collected = []) :
    s.streamed rs latency 0 = s := by
  ext1 <;> simp [State.streamed, inFlight_zero, hp, hd, hi, hc]

end Streamed

/-! ## The edges of a stream -/

/-- Edge `i` of a stream offers request `i`, where there is one. -/
def streamEdge (rs : List Request) (i : Nat) : Pins × Nat := (offering rs[i]?, 1)

theorem streaming_eq (rs : List Request) (drain : Nat) :
    streaming rs drain = (List.range' 0 (rs.length + drain)).map (streamEdge rs) := by
  have offered : rs.map some ++ List.replicate drain none = (List.range' 0 (rs.length + drain)).map (rs[·]?) := by
    refine List.ext_getElem (by simp) fun i h1 h2 => ?_
    by_cases inside : i < rs.length
    · simp [inside]
    · simp [List.getElem_append, inside]
  rw [streaming, offered, List.map_map]
  rfl

/-! ## The timed run -/

/-- The timed block before edge `i` of a stream: request `i` was accepted at edge `i`. -/
def timedStreamed (rs : List Request) (latency i : Nat) : Timed :=
  ⟨State.reset.streamed rs latency i, inFlight latency i (List.range rs.length), i⟩

theorem timedStreamed_pend (rs : List Request) (latency i : Nat) :
    (timedStreamed rs latency i).state.pend = inFlight latency i rs := rfl

/-- The oldest stamp is that of the request accepted `latency` edges ago, or of the first. -/
theorem stamps_timedStreamed {rs : List Request} {latency i : Nat} (h : inFlight latency i rs ≠ []) :
    ∃ rest, (timedStreamed rs latency i).stamps = (i - latency) :: rest := by
  have inside : i - latency < ((List.range rs.length).take i).length := by
    have := List.length_pos_iff.mpr h
    rw [length_inFlight] at this
    rw [List.length_take, List.length_range]
    omega
  exact ⟨_, (List.drop_eq_getElem_cons inside).trans (by rw [List.getElem_take, List.getElem_range])⟩

/-- A pending request is ripe exactly once the first has been in flight for `latency` edges. -/
theorem ripe_timedStreamed {rs : List Request} {latency i : Nat} (h : inFlight latency i rs ≠ []) :
    min 1 ((timedStreamed rs latency i).ripe latency) = leaving latency i := by
  obtain ⟨rest, stamps⟩ := stamps_timedStreamed h
  have now : (timedStreamed rs latency i).now = i := rfl
  rw [Timed.ripe, stamps, now, List.takeWhile_cons, leaving]
  by_cases first : i - latency + latency ≤ i
  · rw [if_pos (decide_eq_true first), List.length_cons]
    omega
  · rw [if_neg (by simpa using first), List.length_nil]
    omega

/-- The converter takes as many requests as leave the pipeline, where that many are pending. -/
theorem taken_timedStreamed (rs : List Request) (latency i : Nat) :
    (timedStreamed rs latency i).taken latency 1 = min (leaving latency i) (inFlight latency i rs).length := by
  rw [Timed.taken, timedStreamed_pend]
  by_cases h : inFlight latency i rs = []
  · simp [h]
  · rw [ripe_timedStreamed h]

section TimedRun

variable {p : Params} (rs : List Request) (hlatency : 1 ≤ p.latency) (hdepth : p.latency + 2 ≤ p.depth)
include hlatency hdepth

theorem timedEdge_streamed (i : Nat) :
    timedEdge p (offering rs[i]?) 1 (timedStreamed rs p.latency i) = .next (timedStreamed rs p.latency (i + 1)) := by
  have moved : edge p (offering rs[i]?) ((timedStreamed rs p.latency i).taken p.latency 1)
      (timedStreamed rs p.latency i).state = .next (State.reset.streamed rs p.latency (i + 1)) :=
    edge_streamed State.reset rs i rfl hlatency hdepth (by rw [taken_timedStreamed, Nat.min_assoc, Nat.min_self])
  have accepting : accepted p (offering rs[i]?) (timedStreamed rs p.latency i).state = rs[i]?.isSome :=
    accepted_streamed State.reset rs i hdepth
  have entering : (if rs[i]?.isSome then [i] else []) = (List.range rs.length)[i]?.toList := by
    by_cases inside : i < rs.length <;> simp [inside]
  have stamps : (inFlight p.latency i (List.range rs.length)).drop ((timedStreamed rs p.latency i).taken p.latency 1) ++
      (if rs[i]?.isSome then [i] else []) = inFlight p.latency (i + 1) (List.range rs.length) := by
    have count : (inFlight p.latency i rs).length = (inFlight p.latency i (List.range rs.length)).length := by
      rw [length_inFlight, length_inFlight, List.length_range]
    rw [taken_timedStreamed, count, entering, ← inFlight_succ _ hlatency]
    refine congrArg (· ++ _) (List.drop_eq_drop_iff.mpr ?_)
    rw [Nat.min_assoc, Nat.min_self]
  rw [timedEdge, moved, andThen_next, accepting]
  exact congrArg (fun l => Host.Outcome.next (Timed.mk _ l (i + 1))) stamps

theorem timedRun_streamed (m i : Nat) :
    timedRun p ((List.range' i m).map (streamEdge rs)) (timedStreamed rs p.latency i) =
      .next (timedStreamed rs p.latency (i + m)) := by
  induction m generalizing i with
  | zero => rfl
  | succ m ih =>
    rw [List.range'_succ, List.map_cons, timedRun, streamEdge, timedEdge_streamed rs hlatency hdepth, andThen_next, ih,
      Nat.add_right_comm, Nat.add_assoc]

end TimedRun

/-! ## The run of the step -/

/-- With a latency of 1 each edge converts whatever is pending, so that the edges are a schedule of the step. -/
theorem runWith_streamed {p : Params} (rs : List Request) (hdepth : 3 ≤ p.depth) (m i : Nat) {s : State}
    (hw : s.wasReset = true) (hs : s.schedule = edgeMoves ((List.range' i m).map (streamEdge rs))) :
    ∃ u : State, runWith p m (s.streamed rs 1 i) = .next (u.streamed rs 1 (i + m)) := by
  induction m generalizing i s with
  | zero => exact ⟨s, rfl⟩
  | succ m ih =>
    rw [List.range'_succ, List.map_cons] at hs
    have one : min 1 (inFlight 1 i rs).length = min (leaving 1 i) (inFlight 1 i rs).length := by
      rw [length_inFlight, leaving]
      omega
    have first : stepWith p (s.streamed rs 1 i) = .next (s.advance.streamed rs 1 (i + 1)) :=
      (stepWith_takes (s := s.streamed rs 1 i) hs).trans (edge_streamed s.advance rs i hw (Nat.le_refl 1) hdepth one)
    obtain ⟨u, runs⟩ := ih (i + 1) (s := s.advance) hw (by rw [State.advance_schedule, hs]; rfl)
    exact ⟨u, by rw [runWith_of_step first, runs, Nat.add_right_comm, Nat.add_assoc]⟩

theorem latency_pos_of_legal {p : Params} (h : p.legal = true) : 1 ≤ p.latency := by
  simp only [Params.legal, Bool.and_eq_true, decide_eq_true_eq] at h
  obtain ⟨⟨_, hlatency⟩, _⟩ := h
  exact hlatency

/-- Settles O54: before edge `LATENCY + 1` after the last request the block is known, and everything is collected. -/
theorem streamingCompletes : Obligations.StreamingCompletes := by
  unfold Obligations.StreamingCompletes
  constructor
  · intro p rs hp hdepth
    have start : Timed.reset = timedStreamed rs p.latency 0 := by
      rw [timedStreamed, streamed_zero State.reset rs rfl rfl rfl rfl, inFlight_zero]
      rfl
    rw [streaming_eq, start, timedRun_streamed rs (latency_pos_of_legal hp) hdepth, Nat.zero_add]
    exact ⟨_, rfl, rfl, streamed_finished State.reset rs (Nat.le_refl _)⟩
  · intro p rs _ hdepth
    have start := streamed_zero (State.scheduled (edgeMoves (streaming rs 2))) rs (latency := 1) rfl rfl rfl rfl
    obtain ⟨u, runs⟩ := runWith_streamed rs hdepth (rs.length + 2) 0 (s := State.scheduled (edgeMoves (streaming rs 2)))
      rfl (congrArg edgeMoves (streaming_eq rs 2))
    rw [start, Nat.zero_add] at runs
    exact ⟨_, runs, streamed_finished u rs (Nat.le_refl _)⟩

end Sys2Proof.Machine
end
